-- ==== Sys2Proof/Word.lean ====
section
/-! DEFINITION. The bit-vector types of XR-32 (spec/00_scope.md R5, R8, R9): a register word is 32 bits, an
instruction word 64 bits, a register field 5 bits, a port number 16 bits. -/

namespace Sys2Proof

/-- A register value, a data word, an address while it is computed (R5, R9). -/
abbrev Word := BitVec 32

/-- One byte of physical memory, and the width of `FR`, `IE0`, `IE3`, `PRR` (R30, R60). -/
abbrev Byte := BitVec 8

/-- One encoded instruction (R100). -/
abbrev InstrWord := BitVec 64

/-- A 5-bit register field: a general-register number or a special-register number (R20, R30). -/
abbrev RegNum := BitVec 5

/-- A 16-bit I/O port number (R50, R90). -/
abbrev Port := BitVec 16

end Sys2Proof
end

