-- ==== Sys2Proof/Config.lean ====
section
/-! DEFINITION. What the spec leaves to a named parameter (spec/00_scope.md R6), as plain data that the state
carries and no step changes, and the one free value: what a device answers (spec/20_memory.md R90). -/

namespace Sys2Proof

/-- `EXT_SRC_BITS`, the source width of `SEXT` and `ZEXT`: 8 or 16 (R6, D12). -/
inductive ExtSource where
  | bits8
  | bits16
deriving DecidableEq, Repr

/-- The parameters of R6, chosen by the host before a run. The defaults are the spec's settings; `memSize`
has none in the spec, and 0x10000 is the size its examples use (DESIGN CHOICE, unsafe: log 2).
`PRR_VALUE` is what the register `PRR` holds; `IMAGE_BASE` is an argument of the host's load action. -/
structure Config where
  /-- `MEM_SIZE`, the size of physical memory in bytes (R60). -/
  memSize : Nat := 0x10000
  /-- `ABS_SENTINEL`, the `rs1` field that makes `LDR` and `STR` absolute (R120). -/
  absSentinel : RegNum := 0x0D
  /-- `EXT_SRC_BITS` (R182). -/
  extSrc : ExtSource := .bits16
  /-- `CHECK_READS`: reads too obey `kernel_only` (R76). -/
  checkReads : Bool := true
  /-- `FETCH_TRANSLATED`: each half of a fetch is a `MemRead` (R141). -/
  fetchTranslated : Bool := false
  /-- `DIV_SIGNED`: `DIV` and `MOD` are signed (R163, D9). -/
  divSigned : Bool := false
  /-- `IO_MAPPED`, the ports that have a device (R91). -/
  ioMapped : List Port := []
deriving DecidableEq, Repr

/-- One access that reached a mapped port (R90): the observable events of a run, in program order (R292). -/
inductive IoEvent where
  | read (port : Port) (answer : Word)
  | write (port : Port) (value : Word)
deriving DecidableEq, Repr

/-- FREE VALUE: what the device at a mapped port answers after a history of accesses, when the environment has
put no answer into the state. "Supplied by the environment, under no law" (R90); it has no body, so nothing can
be proved of it (DESIGN CHOICE, log 3). -/
opaque Config.deviceAnswer : List IoEvent → Port → Word

end Sys2Proof
end

