-- ==== Sys2Proof/Syntax.lean ====
section
/-! DEFINITION. The syntax of XR-32: the three instruction formats as records of field values
(spec/30_encoding.md R102 to R104, R115) and the 38 instructions with the fields each uses (R110, R118). -/

namespace Sys2Proof

/-- The three instruction formats (R101). -/
inductive Format where
  | r
  | i
  | j
deriving DecidableEq, Repr

/-- The record a decoder returns and the encoder takes (R115, R116): every field of the format as a number, so
that a field that does not fit its width can be written down and refused. -/
inductive Record where
  | r (op rd rs1 rs2 shamt func : Nat)
  | i (op rd rs1 imm : Nat)
  | j (op address : Nat)
deriving DecidableEq, Repr

/-- The 38 instructions in the order of the opcode map (R110), each with the fields R118 lists for it.
`swi` keeps the whole immediate, of which the machine uses the low byte (R220). -/
inductive Instr where
  | add (rd rs1 rs2 : RegNum)
  | sub (rd rs1 rs2 : RegNum)
  | and (rd rs1 rs2 : RegNum)
  | or (rd rs1 rs2 : RegNum)
  | xor (rd rs1 rs2 : RegNum)
  | lsl (rd rs1 : RegNum) (shamt : BitVec 6)
  | lsr (rd rs1 : RegNum) (shamt : BitVec 6)
  | ldr (rd rs1 : RegNum) (imm : Word)
  | str (rd rs1 : RegNum) (imm : Word)
  | jmp (address : Word)
  | jal (address : Word)
  | beq (imm : Word)
  | bne (imm : Word)
  | mov (rd rs1 : RegNum)
  | cmp (rd rs1 : RegNum)
  | push (rd : RegNum)
  | pop (rd : RegNum)
  | call (address : Word)
  | ret
  | iret
  | nop
  | hlt
  | mul (rd rs1 rs2 : RegNum)
  | div (rd rs1 rs2 : RegNum)
  | mod (rd rs1 rs2 : RegNum)
  | not (rd rs1 : RegNum)
  | neg (rd rs1 : RegNum)
  | inc (rd : RegNum)
  | dec (rd : RegNum)
  | asl (rd rs1 : RegNum) (shamt : BitVec 6)
  | asr (rd rs1 : RegNum) (shamt : BitVec 6)
  | swi (imm : Word)
  | sext (rd rs1 : RegNum)
  | zext (rd rs1 : RegNum)
  | mfs (rd spec : RegNum)
  | mts (spec rs : RegNum)
  | out (rd rs1 : RegNum)
  | inp (rd rs1 : RegNum)
deriving DecidableEq, Repr

end Sys2Proof
end

