-- ==== Sys2Proof/WellFormed.lean ====
section
/-! DEFINITION. What is well formed: a record whose fields fit their widths and whose opcode is of its format
(spec/30_encoding.md R110, R116), and a legal setting of the parameters (spec/00_scope.md R6). An `Instr` is
well formed by its type: each operand has the width of its field. -/

namespace Sys2Proof

/-- The format of an opcode, `none` for the 26 illegal ones (R110, R111). -/
def Format.ofOpcode (op : Nat) : Option Format :=
  if 0x01 ≤ op ∧ op ≤ 0x07 then some .r
  else if 0x08 ≤ op ∧ op ≤ 0x09 then some .i
  else if 0x0A ≤ op ∧ op ≤ 0x0B then some .j
  else if 0x0C ≤ op ∧ op ≤ 0x11 then some .i
  else if 0x12 ≤ op ∧ op ≤ 0x16 then some .j
  else if 0x17 ≤ op ∧ op ≤ 0x1F then some .r
  else if 0x20 ≤ op ∧ op ≤ 0x26 then some .i
  else none

/-- Every field fits its width and the opcode is in the class of the record (R116). -/
def Record.wellFormed : Record → Bool
  | .r op rd rs1 rs2 shamt func =>
    Format.ofOpcode op == some .r && decide (rd < 32) && decide (rs1 < 32) && decide (rs2 < 32)
      && decide (shamt < 64) && decide (func < 256)
  | .i op rd rs1 imm =>
    Format.ofOpcode op == some .i && decide (rd < 32) && decide (rs1 < 32) && decide (imm < 2 ^ 32)
  | .j op address => Format.ofOpcode op == some .j && decide (address < 2 ^ 32)

/-- No port is mapped twice (R91), and `0 < MEM_SIZE <= 2^32` (R6). -/
def Config.wellFormed (c : Config) : Bool :=
  decide (0 < c.memSize) && decide (c.memSize ≤ 2 ^ 32) && decide c.ioMapped.Nodup

end Sys2Proof
end

