-- ==== Sys2Proof/Decode.lean ====
section
/-! DEFINITION. The decoder and, after it, the encoder (spec/30_encoding.md R100 to R118): word to record (R115),
record to instruction (R110, R118), and back (R116), and the same from and to bytes in memory order
(spec/20_memory.md R61). Both are total; an illegal word or record is rejected by name. -/

namespace Sys2Proof

/-- Why a decode fails: the opcode is in no class (R111), or fewer than eight bytes were given (R100). -/
inductive DecodeError where
  | invalidOpcode (op : BitVec 6)
  | truncated
deriving DecidableEq, Repr

/-- Why the encoder produces no word (R116): a field value too wide for its field, or an opcode that is not in
the class of the record. -/
inductive EncodeError where
  | illFormed (r : Record)
deriving DecidableEq, Repr

/-! ### Fields of a word (R101 to R105) -/

/-- `word[63:58]` (R101). -/
def opcodeOf (w : InstrWord) : BitVec 6 := w.extractLsb' 58 6
/-- `word[57:53]` (R102, R103). -/
def rdOf (w : InstrWord) : RegNum := w.extractLsb' 53 5
/-- `word[52:48]` (R102, R103). -/
def rs1Of (w : InstrWord) : RegNum := w.extractLsb' 48 5
/-- `word[47:43]` (R102). -/
def rs2Of (w : InstrWord) : RegNum := w.extractLsb' 43 5
/-- `word[42:37]` (R102). -/
def shamtOf (w : InstrWord) : BitVec 6 := w.extractLsb' 37 6
/-- `word[36:29]` (R102), used by no instruction (R106). -/
def funcOf (w : InstrWord) : BitVec 8 := w.extractLsb' 29 8
/-- `word[47:16]` (R103). -/
def immOf (w : InstrWord) : Word := w.extractLsb' 16 32
/-- `word[57:26]` (R104). -/
def addressOf (w : InstrWord) : Word := w.extractLsb' 26 32

/-! ### The decoder -/

/-- `decode(word)` of R115: the record of the word's format, with every field of that format. -/
def decodeRecord (w : InstrWord) : Except DecodeError Record :=
  match Format.ofOpcode (opcodeOf w).toNat with
  | some .r => .ok (.r (opcodeOf w).toNat (rdOf w).toNat (rs1Of w).toNat (rs2Of w).toNat
      (shamtOf w).toNat (funcOf w).toNat)
  | some .i => .ok (.i (opcodeOf w).toNat (rdOf w).toNat (rs1Of w).toNat (immOf w).toNat)
  | some .j => .ok (.j (opcodeOf w).toNat (addressOf w).toNat)
  | none => .error (.invalidOpcode (opcodeOf w))

/-- The R-class opcodes of R110. -/
def instrR (op : BitVec 6) (rd rs1 rs2 : RegNum) (shamt : BitVec 6) : Except DecodeError Instr :=
  match op with
  | 0x01 => .ok (.add rd rs1 rs2)
  | 0x02 => .ok (.sub rd rs1 rs2)
  | 0x03 => .ok (.and rd rs1 rs2)
  | 0x04 => .ok (.or rd rs1 rs2)
  | 0x05 => .ok (.xor rd rs1 rs2)
  | 0x06 => .ok (.lsl rd rs1 shamt)
  | 0x07 => .ok (.lsr rd rs1 shamt)
  | 0x17 => .ok (.mul rd rs1 rs2)
  | 0x18 => .ok (.div rd rs1 rs2)
  | 0x19 => .ok (.mod rd rs1 rs2)
  | 0x1A => .ok (.not rd rs1)
  | 0x1B => .ok (.neg rd rs1)
  | 0x1C => .ok (.inc rd)
  | 0x1D => .ok (.dec rd)
  | 0x1E => .ok (.asl rd rs1 shamt)
  | 0x1F => .ok (.asr rd rs1 shamt)
  | op => .error (.invalidOpcode op)

/-- The I-class opcodes of R110. -/
def instrI (op : BitVec 6) (rd rs1 : RegNum) (imm : Word) : Except DecodeError Instr :=
  match op with
  | 0x08 => .ok (.ldr rd rs1 imm)
  | 0x09 => .ok (.str rd rs1 imm)
  | 0x0C => .ok (.beq imm)
  | 0x0D => .ok (.bne imm)
  | 0x0E => .ok (.mov rd rs1)
  | 0x0F => .ok (.cmp rd rs1)
  | 0x10 => .ok (.push rd)
  | 0x11 => .ok (.pop rd)
  | 0x20 => .ok (.swi imm)
  | 0x21 => .ok (.sext rd rs1)
  | 0x22 => .ok (.zext rd rs1)
  | 0x23 => .ok (.mfs rd rs1)
  | 0x24 => .ok (.mts rd rs1)
  | 0x25 => .ok (.out rd rs1)
  | 0x26 => .ok (.inp rd rs1)
  | op => .error (.invalidOpcode op)

/-- The J-class opcodes of R110. -/
def instrJ (op : BitVec 6) (address : Word) : Except DecodeError Instr :=
  match op with
  | 0x0A => .ok (.jmp address)
  | 0x0B => .ok (.jal address)
  | 0x12 => .ok (.call address)
  | 0x13 => .ok .ret
  | 0x14 => .ok .iret
  | 0x15 => .ok .nop
  | 0x16 => .ok .hlt
  | op => .error (.invalidOpcode op)

/-- The instruction a record stands for: the opcode selects it, the fields R118 lists are kept, the others are
ignored (R106). -/
def Record.toInstr : Record → Except DecodeError Instr
  | .r op rd rs1 rs2 shamt _ =>
    instrR (BitVec.ofNat 6 op) (BitVec.ofNat 5 rd) (BitVec.ofNat 5 rs1) (BitVec.ofNat 5 rs2) (BitVec.ofNat 6 shamt)
  | .i op rd rs1 imm => instrI (BitVec.ofNat 6 op) (BitVec.ofNat 5 rd) (BitVec.ofNat 5 rs1) (BitVec.ofNat 32 imm)
  | .j op address => instrJ (BitVec.ofNat 6 op) (BitVec.ofNat 32 address)

/-- The instruction of a word: its record, read by the opcode map. Total on all 2^64 words (R115). -/
def decode (w : InstrWord) : Except DecodeError Instr :=
  match decodeRecord w with
  | .ok r => r.toInstr
  | .error e => .error e

/-- The value of a list of bytes, the first at the lowest address and least significant (R61). -/
def bytesValue : List Byte → Nat
  | [] => 0
  | b :: bs => b.toNat + 256 * bytesValue bs

/-- The low `n` bytes of a number, least significant first (R61). -/
def bytesOf : Nat → Nat → List Byte
  | 0, _ => []
  | n + 1, v => BitVec.ofNat 8 v :: bytesOf n (v / 256)

/-- The instruction at the front of a list of bytes in memory order, and the bytes after it; total on any
bytes. -/
def decodeBytes (bs : List Byte) : Except DecodeError (Instr × List Byte) :=
  if bs.length < 8 then .error .truncated
  else
    match decode (BitVec.ofNat 64 (bytesValue (bs.take 8))) with
    | .ok i => .ok (i, bs.drop 8)
    | .error e => .error e

/-- The host's entry to the decoder: the `nbits` low bits of `w`, every bit above them 0, laid out as eight
bytes in memory order and decoded. -/
def decodeTableWord (nbits w : Nat) : Option Instr :=
  match decodeBytes (bytesOf 8 (w % 2 ^ nbits)) with
  | .ok (i, _) => some i
  | .error _ => none

/-! ### The encoder -/

/-- The word of a record, reserved bits 0: the fields in their order from the top (R102 to R104, R116). -/
def Record.pack : Record → InstrWord
  | .r op rd rs1 rs2 shamt func =>
    BitVec.ofNat 6 op ++ BitVec.ofNat 5 rd ++ BitVec.ofNat 5 rs1 ++ BitVec.ofNat 5 rs2
      ++ BitVec.ofNat 6 shamt ++ BitVec.ofNat 8 func ++ 0#29
  | .i op rd rs1 imm =>
    BitVec.ofNat 6 op ++ BitVec.ofNat 5 rd ++ BitVec.ofNat 5 rs1 ++ BitVec.ofNat 32 imm ++ 0#16
  | .j op address => BitVec.ofNat 6 op ++ BitVec.ofNat 32 address ++ 0#26

/-- `encode(record)` of R116: the word, or an error and no word when a field does not fit or the opcode is not
in the record's class; nothing is truncated silently. -/
def encodeRecord (r : Record) : Except EncodeError InstrWord :=
  if r.wellFormed then .ok r.pack else .error (.illFormed r)

/-- The record of an instruction, 0 in every field the instruction does not use (R106, R118, R129). -/
def Instr.toRecord : Instr → Record
  | .add rd rs1 rs2 => .r 0x01 rd.toNat rs1.toNat rs2.toNat 0 0
  | .sub rd rs1 rs2 => .r 0x02 rd.toNat rs1.toNat rs2.toNat 0 0
  | .and rd rs1 rs2 => .r 0x03 rd.toNat rs1.toNat rs2.toNat 0 0
  | .or rd rs1 rs2 => .r 0x04 rd.toNat rs1.toNat rs2.toNat 0 0
  | .xor rd rs1 rs2 => .r 0x05 rd.toNat rs1.toNat rs2.toNat 0 0
  | .lsl rd rs1 shamt => .r 0x06 rd.toNat rs1.toNat 0 shamt.toNat 0
  | .lsr rd rs1 shamt => .r 0x07 rd.toNat rs1.toNat 0 shamt.toNat 0
  | .ldr rd rs1 imm => .i 0x08 rd.toNat rs1.toNat imm.toNat
  | .str rd rs1 imm => .i 0x09 rd.toNat rs1.toNat imm.toNat
  | .jmp address => .j 0x0A address.toNat
  | .jal address => .j 0x0B address.toNat
  | .beq imm => .i 0x0C 0 0 imm.toNat
  | .bne imm => .i 0x0D 0 0 imm.toNat
  | .mov rd rs1 => .i 0x0E rd.toNat rs1.toNat 0
  | .cmp rd rs1 => .i 0x0F rd.toNat rs1.toNat 0
  | .push rd => .i 0x10 rd.toNat 0 0
  | .pop rd => .i 0x11 rd.toNat 0 0
  | .call address => .j 0x12 address.toNat
  | .ret => .j 0x13 0
  | .iret => .j 0x14 0
  | .nop => .j 0x15 0
  | .hlt => .j 0x16 0
  | .mul rd rs1 rs2 => .r 0x17 rd.toNat rs1.toNat rs2.toNat 0 0
  | .div rd rs1 rs2 => .r 0x18 rd.toNat rs1.toNat rs2.toNat 0 0
  | .mod rd rs1 rs2 => .r 0x19 rd.toNat rs1.toNat rs2.toNat 0 0
  | .not rd rs1 => .r 0x1A rd.toNat rs1.toNat 0 0 0
  | .neg rd rs1 => .r 0x1B rd.toNat rs1.toNat 0 0 0
  | .inc rd => .r 0x1C rd.toNat 0 0 0 0
  | .dec rd => .r 0x1D rd.toNat 0 0 0 0
  | .asl rd rs1 shamt => .r 0x1E rd.toNat rs1.toNat 0 shamt.toNat 0
  | .asr rd rs1 shamt => .r 0x1F rd.toNat rs1.toNat 0 shamt.toNat 0
  | .swi imm => .i 0x20 0 0 imm.toNat
  | .sext rd rs1 => .i 0x21 rd.toNat rs1.toNat 0
  | .zext rd rs1 => .i 0x22 rd.toNat rs1.toNat 0
  | .mfs rd spec => .i 0x23 rd.toNat spec.toNat 0
  | .mts spec rs => .i 0x24 spec.toNat rs.toNat 0
  | .out rd rs1 => .i 0x25 rd.toNat rs1.toNat 0
  | .inp rd rs1 => .i 0x26 rd.toNat rs1.toNat 0

/-- The word the assembler emits for an instruction (R116, R129). -/
def encode (i : Instr) : InstrWord := i.toRecord.pack

/-- The bytes of an instruction in memory order (R61). -/
def encodeBytes (i : Instr) : List Byte := bytesOf 8 (encode i).toNat

end Sys2Proof
end

