-- ==== Sys2Proof/Machine/State.lean ====
section
/-! DEFINITION. The state of the XR-32 core (spec/10_state.md R20 to R55): 32 general registers, 14 special
registers, physical memory, the two terminal flags; beside them the parameters of the machine and the
environment's side of the port bus, which are the model's own fields (logs 1 and 3). -/

namespace Sys2Proof.Machine

/-- Physical memory (R60): addresses strictly rising, no entry equal to what an unlisted address reads as, which
is 0, the content of every byte at reset (R55). -/
abbrev Memory := List Host.Cell

/-- Why no step runs. -/
inductive Fault where
  /-- Raised by `step` when `halted` is set: after `HLT` no further step runs (R52, R207). Safe: the spec gives
  no step to take. -/
  | halted
  /-- Raised by `step` when `host_error` is set: an access was out of range, the machine has stopped in a
  terminal state that is never a correct end (R52, R68). Safe: the spec gives no step to take. -/
  | hostError
deriving DecidableEq, Repr

/-- Why an instruction has no meaning. -/
inductive Refusal where
  /-- Raised by `exec` for an instruction that is not modelled yet; every instruction is modelled, so no arm
  answers it. Safe: the run stops. -/
  | notModelled (mnemonic : String)
deriving DecidableEq, Repr

/-- The whole machine. -/
structure State where
  /-- `R[0]` to `R[31]` (R20, R21). -/
  regs : Vector Word 32
  /-- `I0`, the program counter (R25). -/
  i0 : Word
  /-- `S0`, the stack pointer of both modes (R32). -/
  s0 : Word
  /-- `S1`, storage only (R33). -/
  s1 : Word
  /-- `FR`, the flags (R28). -/
  fr : Byte
  /-- `IVTR`, the base of the vector table (R34). -/
  ivtr : Word
  /-- `IE0`, the last error code (R35). -/
  ie0 : Byte
  /-- `IE1`, saved `I0` (R36). -/
  ie1 : Word
  /-- `IE2`, saved `S0` (R37). -/
  ie2 : Word
  /-- `IE3`, saved `FR` (R38). -/
  ie3 : Byte
  /-- `IE4`, saved `MSR` (R39). -/
  ie4 : Word
  /-- `TPDR`, the base of the page directory (R40). -/
  tpdr : Word
  /-- `TSP`, opaque to the core (R41). -/
  tsp : Word
  /-- `PRR`, read-only; it holds `PRR_VALUE` (R46). -/
  prr : Byte
  /-- `MSR`, bit 31 = kernel mode (R47). -/
  msr : Word
  /-- The physical memory array (R60). -/
  mem : Memory
  /-- Set by `HLT` (R52). -/
  halted : Bool
  /-- Set by an out-of-range physical access (R52, R68). -/
  hostError : Bool
  /-- The parameters of R6; no step changes them (the model's own field, log 1). -/
  cfg : Config
  /-- The environment's answers to the next reads of mapped ports, oldest first (the model's own field, log 3). -/
  ioAnswers : List Word
  /-- The accesses that reached mapped ports, in program order (R90, R292; the model's own field, log 3). -/
  ioLog : List IoEvent
deriving DecidableEq, Repr

/-- The reset state under given parameters (R55, R281): everything 0 but `MSR = 1`. -/
def State.resetWith (c : Config) : State where
  regs := Vector.replicate 32 0
  i0 := 0
  s0 := 0
  s1 := 0
  fr := 0
  ivtr := 0
  ie0 := 0
  ie1 := 0
  ie2 := 0
  ie3 := 0
  ie4 := 0
  tpdr := 0
  tsp := 0
  prr := 0
  msr := 1
  mem := []
  halted := false
  hostError := false
  cfg := c
  ioAnswers := []
  ioLog := []

/-- The machine right after reset with the default parameters (R55; defaults: logs 1 and 2). -/
def State.reset : State := State.resetWith {}

end Sys2Proof.Machine
end

