-- ==== Sys2Proof/Machine/Causes.lean ====
section
/-! DEFINITION. The interrupt numbers and error codes of spec/60_exceptions.md R241, as the source's table names
them. The hardware raises only the few of R242; `SWI` can deliver every number. -/

namespace Sys2Proof.Machine

/-- The named interrupts of R241. -/
inductive Interrupt where
  | divideByZero
  | invalidOpcode
  | pageFault
  | generalProtectionFault
  | overflowException
  | doubleFault
  | alignmentCheck
  | nonMaskable
  | userInterrupt1
  | userInterrupt2
  | userInterrupt3
deriving DecidableEq, Repr

/-- The number of a named interrupt (R241). -/
def Interrupt.number : Interrupt → Byte
  | .divideByZero => 0x00
  | .invalidOpcode => 0x01
  | .pageFault => 0x02
  | .generalProtectionFault => 0x03
  | .overflowException => 0x04
  | .doubleFault => 0x05
  | .alignmentCheck => 0x06
  | .nonMaskable => 0x07
  | .userInterrupt1 => 0x08
  | .userInterrupt2 => 0x09
  | .userInterrupt3 => 0x0A

/-- The meanings of PageFault's error codes (R241); only `notPresent` is ever produced (R73). -/
inductive PageFaultCode where
  | notPresent
  | writeOnReadOnly
  | userToKernelPage
  | reservedBits
  | execNonExec
deriving DecidableEq, Repr

/-- R241. -/
def PageFaultCode.code : PageFaultCode → Byte
  | .notPresent => 0
  | .writeOnReadOnly => 1
  | .userToKernelPage => 2
  | .reservedBits => 3
  | .execNonExec => 4

/-- The meanings of GeneralProtectionFault's error codes (R241); only `userToKernelMem` and `reservedSysreg` are
ever produced (R242, R244). -/
inductive GpfCode where
  | privInstr
  | userToKernelMem
  | execNonExecMem
  | writeToReadOnly
  | unauthorizedIo
  | invalidModeInstr
  | reservedSysreg
  | writePrivReg
deriving DecidableEq, Repr

/-- R241. -/
def GpfCode.code : GpfCode → Byte
  | .privInstr => 0
  | .userToKernelMem => 1
  | .execNonExecMem => 2
  | .writeToReadOnly => 3
  | .unauthorizedIo => 4
  | .invalidModeInstr => 5
  | .reservedSysreg => 6
  | .writePrivReg => 7

/-- The meanings of OverflowException's error codes (R241); the hardware never raises it (R244). -/
inductive OverflowCode where
  | addSub
  | mul
  | divUnderflow
  | subUnderflow
  | shift
deriving DecidableEq, Repr

/-- R241. -/
def OverflowCode.code : OverflowCode → Byte
  | .addSub => 0
  | .mul => 1
  | .divUnderflow => 2
  | .subUnderflow => 3
  | .shift => 4

/-- The meanings of AlignmentCheck's error codes (R241); the hardware never raises it (R63, R244). -/
inductive AlignmentCode where
  | generic
  | bits16
  | bits32
  | bits64
  | userMode
deriving DecidableEq, Repr

/-- R241. -/
def AlignmentCode.code : AlignmentCode → Byte
  | .generic => 0
  | .bits16 => 1
  | .bits32 => 2
  | .bits64 => 3
  | .userMode => 4

/-- The error code of DivideByZero, InvalidOpcode, DoubleFault, NonMaskable (R241) and of every `SWI` (R220). -/
def zeroCode : Byte := 0#8

end Sys2Proof.Machine
end

