-- ==== Sys2Proof/Machine/Flags.lean ====
section
/-! DEFINITION. The flags register (spec/10_state.md R28) and the flag rule (spec/41_alu.md R150, R151, R152, R156;
spec/42_shift.md R170 to R174). -/

namespace Sys2Proof.Machine

/-- The implemented bits of `FR`: V, S, Z, C; every write is ANDed with it (R28). -/
def flagMask : Byte := 0x47#8

/-- One bit at a place of an 8-bit register. -/
def bitAt (b : Bool) (k : Nat) : Byte := if b then 1#8 <<< k else 0#8

/-- The word `SetFlags(res, c, v)` writes: V bit 6, S bit 2, Z bit 1, C bit 0 (R150). -/
def flagWord (res : Word) (c v : Bool) : Byte :=
  bitAt v 6 ||| bitAt (res[31]) 2 ||| bitAt (res == 0#32) 1 ||| bitAt c 0

/-- A write of `FR`: the reserved bits 7, 5, 4, 3 stay 0 (R28). -/
def State.setFr (s : State) (v : Byte) : State := { s with fr := v &&& flagMask }

/-- `SetFlags(res, c, v)` (R150). -/
def State.setFlags (s : State) (res : Word) (c v : Bool) : State := s.setFr (flagWord res c v)

/-- `FR.C` (R28). -/
def State.flagC (s : State) : Bool := s.fr[0]
/-- `FR.Z` (R28). -/
def State.flagZ (s : State) : Bool := s.fr[1]
/-- `FR.S` (R28). -/
def State.flagS (s : State) : Bool := s.fr[2]
/-- `FR.V` (R28). -/
def State.flagV (s : State) : Bool := s.fr[6]

/-- The carry out of bit 31 of a sum: bit 32 of the 33-bit sum (R151). -/
def addCarry (a b : Word) : Bool := (a.toNat + b.toNat).testBit 32

/-- The signed overflow of a sum: the operands' signs agree and the result's differs (R151). -/
def addOverflow (a b : Word) : Bool :=
  a[31] == b[31] && (a + b)[31] != a[31]

/-- The borrow of a difference: the minuend is below the subtrahend, unsigned (R152). -/
def subBorrow (a b : Word) : Bool := decide (a.toNat < b.toNat)

/-- The signed overflow of a difference (R152). -/
def subOverflow (a b : Word) : Bool :=
  a[31] != b[31] && (a - b)[31] != a[31]

/-- The unsigned product does not fit 32 bits (R156). -/
def mulCarry (a b : Word) : Bool := decide (2 ^ 32 ≤ a.toNat * b.toNat)

/-- The signed product does not fit 32 bits (R156). -/
def mulOverflow (a b : Word) : Bool :=
  decide (a.toInt * b.toInt < -2 ^ 31) || decide (2 ^ 31 - 1 < a.toInt * b.toInt)

/-- The last bit a left shift moves out: bit 32 of the unbounded shift, 0 for an amount of 0 (R171, R173). -/
def shiftLeftCarry (a : Word) (n : Nat) : Bool := n != 0 && (a.toNat <<< n).testBit 32

/-- The last bit a logical right shift moves out (R172). -/
def shiftRightCarry (a : Word) (n : Nat) : Bool := n != 0 && (decide (n ≤ 32) && a.getLsbD (n - 1))

/-- The last bit an arithmetic right shift moves out; beyond 32 a copy of the sign (R174). -/
def arithRightCarry (a : Word) (n : Nat) : Bool :=
  n != 0 && (if n ≤ 32 then a.getLsbD (n - 1) else a[31])

end Sys2Proof.Machine
end

