-- ==== Sys2Proof/Machine/Ops.lean ====
section
/-! DEFINITION. The named operations every instruction is built from: register access, the special registers, raw
and translated memory access with the page-table walk, the trap entry and the return from it, the port bus, and the
advance of `I0`. -/

namespace Sys2Proof.Machine

/-! ### General registers (spec/10_state.md R20 to R22) -/

/-- `R[k]`. -/
def State.reg (s : State) (k : RegNum) : Word := s.regs[k.toNat]'k.isLt

/-- `R[k] <- v`. -/
def State.setReg (s : State) (k : RegNum) (v : Word) : State :=
  { s with regs := s.regs.set k.toNat v k.isLt }

/-! ### Program counter and mode -/

/-- `I0 <- v` (R10: `pc <- v`). -/
def State.setPc (s : State) (v : Word) : State := { s with i0 := v }

/-- The advance of `I0` by 8 modulo 2^32 after an instruction that neither transfers control nor delivers an
interrupt (spec/40_execution_cycle.md R144). -/
def State.advance (s : State) : State := { s with i0 := s.i0 + 8#32 }

/-- `S0 <- v` (R32). -/
def State.setS0 (s : State) (v : Word) : State := { s with s0 := v }

/-- Physical memory replaced by the memory after a write. -/
def State.setMem (s : State) (m : Memory) : State := { s with mem := m }

/-- Bit 31 of `MSR`: kernel mode (R47, spec/60_exceptions.md R265). -/
def State.kernel (s : State) : Bool := s.msr[31]

/-! ### Special registers (spec/10_state.md R30, R31) -/

/-- The 14 special registers. -/
inductive SpecialReg where
  | i0 | s0 | s1 | fr | ivtr | ie0 | ie1 | ie2 | ie3 | ie4 | tpdr | tsp | prr | msr
deriving DecidableEq, Repr

/-- The register a 5-bit number names; 14 to 31 name none (R30). -/
def specialOf (n : RegNum) : Option SpecialReg :=
  match n with
  | 0 => some .i0
  | 1 => some .s0
  | 2 => some .s1
  | 3 => some .fr
  | 4 => some .ivtr
  | 5 => some .ie0
  | 6 => some .ie1
  | 7 => some .ie2
  | 8 => some .ie3
  | 9 => some .ie4
  | 10 => some .tpdr
  | 11 => some .tsp
  | 12 => some .prr
  | 13 => some .msr
  | _ => none

/-- `SR[n]`, an 8-bit register zero-extended (R31). -/
def State.readSpecial (s : State) : SpecialReg → Word
  | .i0 => s.i0
  | .s0 => s.s0
  | .s1 => s.s1
  | .fr => s.fr.setWidth 32
  | .ivtr => s.ivtr
  | .ie0 => s.ie0.setWidth 32
  | .ie1 => s.ie1
  | .ie2 => s.ie2
  | .ie3 => s.ie3.setWidth 32
  | .ie4 => s.ie4
  | .tpdr => s.tpdr
  | .tsp => s.tsp
  | .prr => s.prr.setWidth 32
  | .msr => s.msr

/-- `SR[n] <- v`: an 8-bit register keeps the low 8 bits, `FR` those ANDed with 0x47, and a write of the
read-only `PRR` is dropped (R31, R46, spec/46_system.md R228). -/
def State.writeSpecial (s : State) (r : SpecialReg) (v : Word) : State :=
  match r with
  | .i0 => s.setPc v
  | .s0 => s.setS0 v
  | .s1 => { s with s1 := v }
  | .fr => s.setFr (v.setWidth 8)
  | .ivtr => { s with ivtr := v }
  | .ie0 => { s with ie0 := v.setWidth 8 }
  | .ie1 => { s with ie1 := v }
  | .ie2 => { s with ie2 := v }
  | .ie3 => { s with ie3 := v.setWidth 8 }
  | .ie4 => { s with ie4 := v }
  | .tpdr => { s with tpdr := v }
  | .tsp => { s with tsp := v }
  | .prr => s
  | .msr => { s with msr := v }

/-! ### Raw physical access (spec/20_memory.md R66 to R68) -/

/-- An access of four bytes from `pa` is in range; the sum does not wrap (R66). -/
def State.inRange (s : State) (pa : Word) : Bool := decide (pa.toNat + 4 ≤ s.cfg.memSize)

/-- `PhysRead(pa, 4)`, `none` when out of range (R66). -/
def State.physRead (s : State) (pa : Word) : Option Word :=
  if s.inRange pa then some (Memory.readWord s.mem pa.toNat) else none

/-- `PhysWrite(pa, 4, v)`: the memory after it, `none` when out of range (R67). -/
def State.physWrite (s : State) (pa : Word) (v : Word) : Option Memory :=
  if s.inRange pa then some (Memory.writeWord s.mem pa.toNat v) else none

/-- The machine stopped by an out-of-range access: `host_error` set, nothing else written (R68, log 4). -/
def State.hostStop (s : State) : State := { s with hostError := true }

/-! ### How an access ends -/

/-- An access gives a value, raises an interrupt with an error code, or leaves the physical address range. -/
inductive Access (α : Type) where
  | done (a : α)
  | raise (n ec : Byte)
  | outOfRange
deriving DecidableEq, Repr

/-- A raw access as an `Access`. -/
def Access.ofOption {α : Type} : Option α → Access α
  | some a => .done a
  | none => .outOfRange

/-- One access after another; the first that fails wins (spec/40_execution_cycle.md R147). -/
def Access.bind {α β : Type} (x : Access α) (f : α → Access β) : Access β :=
  match x with
  | .done a => f a
  | .raise n ec => .raise n ec
  | .outOfRange => .outOfRange

/-- PageFault(0) (R73). -/
def Access.pageFault {α : Type} : Access α :=
  .raise Interrupt.pageFault.number PageFaultCode.notPresent.code

/-- GeneralProtectionFault(1) (R76). -/
def Access.kernelPage {α : Type} : Access α :=
  .raise Interrupt.generalProtectionFault.number GpfCode.userToKernelMem.code

/-- GeneralProtectionFault(6) (spec/46_system.md R226, R228). -/
def Access.reservedSpecial {α : Type} : Access α :=
  .raise Interrupt.generalProtectionFault.number GpfCode.reservedSysreg.code

/-- DivideByZero(0) (spec/41_alu.md R157, R158). -/
def Access.divideByZero {α : Type} : Access α := .raise Interrupt.divideByZero.number zeroCode

/-! ### Translation and rights (spec/20_memory.md R70 to R81) -/

/-- `pdi = va[31:22]` (R70). -/
def pdiOf (va : Word) : BitVec 10 := va.extractLsb' 22 10
/-- `pti = va[21:12]` (R70). -/
def ptiOf (va : Word) : BitVec 10 := va.extractLsb' 12 10
/-- `off = va[11:0]` (R70). -/
def offsetOf (va : Word) : BitVec 12 := va.extractLsb' 0 12

/-- `present`, bit 0 of an entry (R71). -/
def entryPresent (e : Word) : Bool := e[0]
/-- `kernel_only`, bit 10 of an entry (R71). -/
def entryKernelOnly (e : Word) : Bool := e[10]
/-- `frame_base` with twelve zero bits below it (R71). -/
def entryBase (e : Word) : Word := e &&& 0xFFFFF000#32

/-- The physical address of the page-directory entry of `va`, modulo 2^32 (R72). -/
def State.pdeAddress (s : State) (va : Word) : Word := s.tpdr + 4#32 * (pdiOf va).setWidth 32
/-- The physical address of the page-table entry of `va` (R72). -/
def pteAddress (pde va : Word) : Word := entryBase pde + 4#32 * (ptiOf va).setWidth 32
/-- The physical address `va` translates to (R72). -/
def physicalOf (pte va : Word) : Word := entryBase pte ||| (offsetOf va).setWidth 32

/-- What a successful walk returns (R72). -/
structure Translation where
  pde : Word
  pte : Word
  pa : Word
deriving DecidableEq, Repr

/-- `Walk(va)` (R72): two raw reads, each entry's `present` tested before the next read. -/
def State.walk (s : State) (va : Word) : Access Translation :=
  (Access.ofOption (s.physRead (s.pdeAddress va))).bind fun pde =>
    if entryPresent pde = false then .pageFault
    else (Access.ofOption (s.physRead (pteAddress pde va))).bind fun pte =>
      if entryPresent pte = false then .pageFault
      else .done { pde := pde, pte := pte, pa := physicalOf pte va }

/-- The access-right check: user mode, and `kernel_only` set at either level (R76). -/
def State.denied (s : State) (x : Translation) : Bool :=
  !s.kernel && (entryKernelOnly x.pde || entryKernelOnly x.pte)

/-- `MemRead(va, 4)` (R80). -/
def State.memRead (s : State) (va : Word) : Access Word :=
  (s.walk va).bind fun x =>
    if s.cfg.checkReads && s.denied x then .kernelPage else .ofOption (s.physRead x.pa)

/-- `MemWrite(va, 4, v)`: the memory after it (R81). -/
def State.memWrite (s : State) (va v : Word) : Access Memory :=
  (s.walk va).bind fun x => if s.denied x then .kernelPage else .ofOption (s.physWrite x.pa v)

/-! ### Taking an exception and returning from one (spec/60_exceptions.md R250, R257) -/

/-- The physical address of vector `n` (R250, R252). -/
def State.vectorAddress (s : State) (n : Byte) : Word := s.ivtr + 4#32 * n.setWidth 32

/-- The trap entry `trigger(n, ec)` (R250): the handler's address is read raw; `I0`, `S0`, `FR`, `MSR` are saved,
the error code recorded, bit 31 of `MSR` set and `I0` set to the handler's address. A vector out of range stops the
machine with nothing else written (R253). -/
def State.trigger (s : State) (n ec : Byte) : State :=
  match s.physRead (s.vectorAddress n) with
  | none => s.hostStop
  | some handler =>
    { s with
      ie1 := s.i0
      ie2 := s.s0
      ie3 := s.fr
      ie4 := s.msr
      ie0 := ec
      msr := s.msr ||| 0x80000000#32
      i0 := handler }

/-- The trap return (R257, spec/46_system.md R222): `I0`, `S0`, `FR` and `MSR` from `IE1` to `IE4`. -/
def State.trapReturn (s : State) : State :=
  ({ s with i0 := s.ie1, s0 := s.ie2, msr := s.ie4 }).setFr s.ie3

/-- How an instruction that made an access ends: its own writes, the trap entry, or the stop; every write comes
after every access that can fail (spec/00_scope.md R11, spec/40_execution_cycle.md R145). -/
def State.conclude {α : Type} (s : State) (x : Access α) (commit : α → State) : State :=
  match x with
  | .done a => commit a
  | .raise n ec => s.trigger n ec
  | .outOfRange => s.hostStop

/-- An instruction whose step goes on in a next state. -/
abbrev continueWith (s : State) : Host.Outcome State Fault Refusal := .next s

/-! ### The port bus (spec/20_memory.md R90 to R92) -/

/-- The port has a device (R91). -/
def State.portMapped (s : State) (p : Port) : Bool := s.cfg.ioMapped.contains p

/-- What the device at `p` answers to the next read: the environment's next answer, or the free value (R90,
log 3). -/
def State.deviceAnswer (s : State) (p : Port) : Word :=
  match s.ioAnswers with
  | a :: _ => a
  | [] => Config.deviceAnswer s.ioLog p

/-- `IoRead(p)`: the value, 0 for an unmapped port (R90). -/
def State.ioRead (s : State) (p : Port) : Word := if s.portMapped p then s.deviceAnswer p else 0#32

/-- The read has been made: a mapped port's answer is used up and recorded (R90). -/
def State.ioReadDone (s : State) (p : Port) : State :=
  if s.portMapped p then
    { s with ioAnswers := s.ioAnswers.tail, ioLog := s.ioLog ++ [.read p (s.deviceAnswer p)] }
  else s

/-- `IoWrite(p, v)`: recorded when the port is mapped, dropped when it is not (R90). -/
def State.ioWrite (s : State) (p : Port) (v : Word) : State :=
  if s.portMapped p then { s with ioLog := s.ioLog ++ [.write p v] } else s

/-! ### Fetch (spec/40_execution_cycle.md R141) -/

/-- One 32-bit half of an instruction: raw, or translated under `FETCH_TRANSLATED`. -/
def State.fetchHalf (s : State) (a : Word) : Access Word :=
  if s.cfg.fetchTranslated then s.memRead a else .ofOption (s.physRead a)

/-- The 64-bit word at `I0`: low half at `I0`, high half at `I0 + 4` modulo 2^32. -/
def State.fetch (s : State) : Access InstrWord :=
  (s.fetchHalf s.i0).bind fun lo => (s.fetchHalf (s.i0 + 4#32)).bind fun hi => .done (hi ++ lo)

/-- The physical address a half of an instruction is fetched from, when the fetch of it succeeds in reaching
memory. -/
def State.fetchPlace (s : State) (a : Word) : Option Word :=
  if s.cfg.fetchTranslated then
    match s.walk a with
    | .done x => some x.pa
    | _ => none
  else some a

/-- A word stored where a half of an instruction is fetched from; nothing is stored where no memory is. -/
def State.storeHalf (s : State) (a v : Word) : State :=
  match s.fetchPlace a with
  | some pa =>
    match s.physWrite pa v with
    | some m => s.setMem m
    | none => s
  | none => s

/-- A 64-bit word stored where the next step fetches its instruction from (the host's load action, R290). -/
def State.storeAtFetch (s : State) (w : InstrWord) : State :=
  (s.storeHalf s.i0 (w.extractLsb' 0 32)).storeHalf (s.i0 + 4#32) (w.extractLsb' 32 32)

end Sys2Proof.Machine
end

