-- ==== Sys2Proof/Machine/Operands.lean ====
section
/-! DEFINITION. Operand forms and the arithmetic of results: the effective address of `LDR` and `STR`
(spec/44_load_store_stack.md R190), the stack slots (R194, R196), quotients and remainders (spec/41_alu.md R157,
R158), shifts (spec/42_shift.md R170 to R174), extensions (spec/43_move_compare.md R182, R183), port numbers
(spec/46_system.md R230). -/

namespace Sys2Proof.Machine

/-- `EA(rs1, imm)`: the immediate when the field is the sentinel, else base plus offset modulo 2^32 (R190). -/
def State.effectiveAddress (s : State) (rs1 : RegNum) (imm : Word) : Word :=
  if rs1 = s.cfg.absSentinel then imm else s.reg rs1 + imm

/-- The slot a push writes: `S0 - 4` (R194, R204). -/
def State.pushSlot (s : State) : Word := s.s0 - 4#32

/-- `S0` after a pop: `S0 + 4` (R196, R205). -/
def State.popped (s : State) : Word := s.s0 + 4#32

/-- The address of the instruction after this one: `I0 + 8` (R203, R204). -/
def State.nextPc (s : State) : Word := s.i0 + 8#32

/-- The target of a taken branch: `I0 + imm` (R200). -/
def State.branchTarget (s : State) (imm : Word) : Word := s.i0 + imm

/-- The quotient: unsigned floor, or truncated toward zero under `DIV_SIGNED` (R157, D9). -/
def quotient (signed : Bool) (a b : Word) : Word :=
  if signed then BitVec.ofInt 32 (a.toInt.tdiv b.toInt) else BitVec.ofNat 32 (a.toNat / b.toNat)

/-- The remainder: unsigned, or with the dividend's sign under `DIV_SIGNED` (R158, D9). -/
def remainder (signed : Bool) (a b : Word) : Word :=
  if signed then BitVec.ofInt 32 (a.toInt.tmod b.toInt) else BitVec.ofNat 32 (a.toNat % b.toNat)

/-- The low 32 bits of the exact product (R156). -/
def product (a b : Word) : Word := BitVec.ofNat 32 (a.toNat * b.toNat)

/-- A left shift as if the register had no upper bound: bits 31:0 of `u(a) << n` (R171, R173). -/
def shiftLeft (a : Word) (n : Nat) : Word := BitVec.ofNat 32 (a.toNat <<< n)

/-- A logical right shift: the floor of `u(a) / 2^n` (R172). -/
def shiftRight (a : Word) (n : Nat) : Word := BitVec.ofNat 32 (a.toNat / 2 ^ n)

/-- An arithmetic right shift: the floor of `s(a) / 2^n` (R174). -/
def arithShiftRight (a : Word) (n : Nat) : Word := BitVec.ofInt 32 (a.toInt.fdiv (2 ^ n))

/-- `sext` of the low `EXT_SRC_BITS` bits (R182). -/
def signExtended (w : ExtSource) (a : Word) : Word :=
  match w with
  | .bits8 => (a.setWidth 8).signExtend 32
  | .bits16 => (a.setWidth 16).signExtend 32

/-- `zext` of the low `EXT_SRC_BITS` bits (R183). -/
def zeroExtended (w : ExtSource) (a : Word) : Word :=
  match w with
  | .bits8 => (a.setWidth 8).setWidth 32
  | .bits16 => (a.setWidth 16).setWidth 32

/-- The port a register names: its low 16 bits (R230). -/
def State.portOf (s : State) (rd : RegNum) : Port := (s.reg rd).setWidth 16

end Sys2Proof.Machine
end

