-- ==== Sys2Proof/Machine/Alu.lean ====
section
/-! DEFINITION. Arithmetic and logic: ADD SUB AND OR XOR MUL DIV MOD NOT NEG INC DEC (spec/41_alu.md). -/

namespace Sys2Proof.Machine

/-- The common end of an ALU instruction: `R[rd] <- r`, `SetFlags(r, c, v)`, the advance (R150, R144). -/
def State.writeResult (s : State) (rd : RegNum) (r : Word) (c v : Bool) : State :=
  ((s.setReg rd r).setFlags r c v).advance

/-- `ADD rd, rs1, rs2` (R151). -/
def execAdd (rd rs1 rs2 : RegNum) (s : State) : Host.Outcome State Fault Refusal :=
  let a := s.reg rs1
  let b := s.reg rs2
  continueWith (s.writeResult rd (a + b) (addCarry a b) (addOverflow a b))

/-- `SUB rd, rs1, rs2` (R152). -/
def execSub (rd rs1 rs2 : RegNum) (s : State) : Host.Outcome State Fault Refusal :=
  let a := s.reg rs1
  let b := s.reg rs2
  continueWith (s.writeResult rd (a - b) (subBorrow a b) (subOverflow a b))

/-- `AND rd, rs1, rs2` (R153). -/
def execAnd (rd rs1 rs2 : RegNum) (s : State) : Host.Outcome State Fault Refusal :=
  continueWith (s.writeResult rd (s.reg rs1 &&& s.reg rs2) false false)

/-- `OR rd, rs1, rs2` (R154). -/
def execOr (rd rs1 rs2 : RegNum) (s : State) : Host.Outcome State Fault Refusal :=
  continueWith (s.writeResult rd (s.reg rs1 ||| s.reg rs2) false false)

/-- `XOR rd, rs1, rs2` (R155). -/
def execXor (rd rs1 rs2 : RegNum) (s : State) : Host.Outcome State Fault Refusal :=
  continueWith (s.writeResult rd (s.reg rs1 ^^^ s.reg rs2) false false)

/-- `MUL rd, rs1, rs2` (R156). -/
def execMul (rd rs1 rs2 : RegNum) (s : State) : Host.Outcome State Fault Refusal :=
  let a := s.reg rs1
  let b := s.reg rs2
  continueWith (s.writeResult rd (product a b) (mulCarry a b) (mulOverflow a b))

/-- A division by `b`: DivideByZero(0) when `b` is 0, else the value (R157, R158). -/
def divided (b r : Word) : Access Word := if b = 0#32 then .divideByZero else .done r

/-- `DIV rd, rs1, rs2` (R157). -/
def execDiv (rd rs1 rs2 : RegNum) (s : State) : Host.Outcome State Fault Refusal :=
  continueWith (s.conclude (divided (s.reg rs2) (quotient s.cfg.divSigned (s.reg rs1) (s.reg rs2)))
    fun r => s.writeResult rd r false false)

/-- `MOD rd, rs1, rs2` (R158). -/
def execMod (rd rs1 rs2 : RegNum) (s : State) : Host.Outcome State Fault Refusal :=
  continueWith (s.conclude (divided (s.reg rs2) (remainder s.cfg.divSigned (s.reg rs1) (s.reg rs2)))
    fun r => s.writeResult rd r false false)

/-- `NOT rd, rs1` (R159). -/
def execNot (rd rs1 : RegNum) (s : State) : Host.Outcome State Fault Refusal :=
  continueWith (s.writeResult rd (~~~ s.reg rs1) false false)

/-- `NEG rd, rs1` (R160). -/
def execNeg (rd rs1 : RegNum) (s : State) : Host.Outcome State Fault Refusal :=
  continueWith (s.writeResult rd (0#32 - s.reg rs1) false false)

/-- `INC rd` (R161). -/
def execInc (rd : RegNum) (s : State) : Host.Outcome State Fault Refusal :=
  continueWith (s.writeResult rd (s.reg rd + 1#32) false false)

/-- `DEC rd` (R162). -/
def execDec (rd : RegNum) (s : State) : Host.Outcome State Fault Refusal :=
  continueWith (s.writeResult rd (s.reg rd - 1#32) false false)

end Sys2Proof.Machine
end

