-- ==== Sys2Proof/Machine/Control.lean ====
section
/-! DEFINITION. Control transfer, NOP and HLT: BEQ BNE JMP JAL CALL RET NOP HLT (spec/45_control.md). A transfer writes
`I0` itself and is not followed by the advance (spec/40_execution_cycle.md R144). -/

namespace Sys2Proof.Machine

/-- `BEQ imm`: taken when Z is set (R200). -/
def execBeq (imm : Word) (s : State) : Host.Outcome State Fault Refusal :=
  continueWith (if s.flagZ = true then s.setPc (s.branchTarget imm) else s.advance)

/-- `BNE imm`: taken when Z is clear (R201). -/
def execBne (imm : Word) (s : State) : Host.Outcome State Fault Refusal :=
  continueWith (if s.flagZ = false then s.setPc (s.branchTarget imm) else s.advance)

/-- `JMP address` (R202). -/
def execJmp (address : Word) (s : State) : Host.Outcome State Fault Refusal :=
  continueWith (s.setPc address)

/-- `JAL address`: the link register is always `R[31]` (R203). -/
def execJal (address : Word) (s : State) : Host.Outcome State Fault Refusal :=
  continueWith ((s.setReg 31#5 s.nextPc).setPc address)

/-- `CALL address` (R204). -/
def execCall (address : Word) (s : State) : Host.Outcome State Fault Refusal :=
  continueWith (s.conclude (s.memWrite s.pushSlot s.nextPc) fun m =>
    ((s.setMem m).setS0 s.pushSlot).setPc address)

/-- `RET` (R205). -/
def execRet (s : State) : Host.Outcome State Fault Refusal :=
  continueWith (s.conclude (s.memRead s.s0) fun v => (s.setS0 s.popped).setPc v)

/-- `NOP` (R206). -/
def execNop (s : State) : Host.Outcome State Fault Refusal :=
  continueWith s.advance

/-- `HLT`: `halted` is set and `I0` advances (R207). -/
def execHlt (s : State) : Host.Outcome State Fault Refusal :=
  continueWith (State.advance { s with halted := true })

end Sys2Proof.Machine
end

