-- ==== Sys2Proof/Machine/LoadStore.lean ====
section
/-! DEFINITION. Load, store and stack: LDR STR PUSH POP (spec/44_load_store_stack.md). Every access is 32 bits wide
through the MMU; a failed access leaves every register and all of memory as they were (R145). -/

namespace Sys2Proof.Machine

/-- `LDR rd, imm` and `LDR rd, rs1, imm` (R191). -/
def execLdr (rd rs1 : RegNum) (imm : Word) (s : State) : Host.Outcome State Fault Refusal :=
  continueWith (s.conclude (s.memRead (s.effectiveAddress rs1 imm)) fun v => (s.setReg rd v).advance)

/-- `STR rd, imm` and `STR rd, rs1, imm`: `R[rd]` is the data stored (R192). -/
def execStr (rd rs1 : RegNum) (imm : Word) (s : State) : Host.Outcome State Fault Refusal :=
  continueWith (s.conclude (s.memWrite (s.effectiveAddress rs1 imm) (s.reg rd)) fun m =>
    (s.setMem m).advance)

/-- `PUSH rd`: `S0` is committed only after the store succeeded (R194). -/
def execPush (rd : RegNum) (s : State) : Host.Outcome State Fault Refusal :=
  continueWith (s.conclude (s.memWrite s.pushSlot (s.reg rd)) fun m =>
    ((s.setMem m).setS0 s.pushSlot).advance)

/-- `POP rd` (R196). -/
def execPop (rd : RegNum) (s : State) : Host.Outcome State Fault Refusal :=
  continueWith (s.conclude (s.memRead s.s0) fun v => ((s.setReg rd v).setS0 s.popped).advance)

end Sys2Proof.Machine
end

