-- ==== Sys2Proof/Machine/Move.lean ====
section
/-! DEFINITION. Register move, compare and extension: MOV CMP SEXT ZEXT (spec/43_move_compare.md). -/

namespace Sys2Proof.Machine

/-- `MOV rd, rs1`; no flag is written (R180). -/
def execMov (rd rs1 : RegNum) (s : State) : Host.Outcome State Fault Refusal :=
  continueWith (s.setReg rd (s.reg rs1)).advance

/-- `CMP rd, rs1`: the flags of `R[rs1] - R[rd]`; no register is written (R181). -/
def execCmp (rd rs1 : RegNum) (s : State) : Host.Outcome State Fault Refusal :=
  let a := s.reg rs1
  let b := s.reg rd
  continueWith (s.setFlags (a - b) (subBorrow a b) (subOverflow a b)).advance

/-- `SEXT rd, rs1` (R182). -/
def execSext (rd rs1 : RegNum) (s : State) : Host.Outcome State Fault Refusal :=
  continueWith (s.setReg rd (signExtended s.cfg.extSrc (s.reg rs1))).advance

/-- `ZEXT rd, rs1` (R183). -/
def execZext (rd rs1 : RegNum) (s : State) : Host.Outcome State Fault Refusal :=
  continueWith (s.setReg rd (zeroExtended s.cfg.extSrc (s.reg rs1))).advance

end Sys2Proof.Machine
end

