-- ==== Sys2Proof/Machine/Shift.lean ====
section
/-! DEFINITION. Shifts: LSL LSR ASL ASR (spec/42_shift.md). The amount is the 6-bit field, 0 to 63, never reduced
modulo 32 (R170); Overflow is cleared. -/

namespace Sys2Proof.Machine

/-- `LSL rd, rs1, shamt` (R171). -/
def execLsl (rd rs1 : RegNum) (shamt : BitVec 6) (s : State) : Host.Outcome State Fault Refusal :=
  let a := s.reg rs1
  continueWith (s.writeResult rd (shiftLeft a shamt.toNat) (shiftLeftCarry a shamt.toNat) false)

/-- `LSR rd, rs1, shamt` (R172). -/
def execLsr (rd rs1 : RegNum) (shamt : BitVec 6) (s : State) : Host.Outcome State Fault Refusal :=
  let a := s.reg rs1
  continueWith (s.writeResult rd (shiftRight a shamt.toNat) (shiftRightCarry a shamt.toNat) false)

/-- `ASL rd, rs1, shamt`: result and flags of `LSL` (R173). -/
def execAsl (rd rs1 : RegNum) (shamt : BitVec 6) (s : State) : Host.Outcome State Fault Refusal :=
  let a := s.reg rs1
  continueWith (s.writeResult rd (shiftLeft a shamt.toNat) (shiftLeftCarry a shamt.toNat) false)

/-- `ASR rd, rs1, shamt` (R174). -/
def execAsr (rd rs1 : RegNum) (shamt : BitVec 6) (s : State) : Host.Outcome State Fault Refusal :=
  let a := s.reg rs1
  continueWith (s.writeResult rd (arithShiftRight a shamt.toNat) (arithRightCarry a shamt.toNat) false)

end Sys2Proof.Machine
end

