-- ==== Sys2Proof/Machine/System.lean ====
section
/-! DEFINITION. System instructions: SWI IRET MFS MTS OUT IN (spec/46_system.md). None needs kernel mode
(spec/60_exceptions.md R270). -/

namespace Sys2Proof.Machine

/-- `SWI imm`: the trap entry with number `imm[7:0]` and error code 0 (R220). -/
def execSwi (imm : Word) (s : State) : Host.Outcome State Fault Refusal :=
  continueWith (s.trigger (imm.setWidth 8) zeroCode)

/-- `IRET` (R222). -/
def execIret (s : State) : Host.Outcome State Fault Refusal :=
  continueWith s.trapReturn

/-- The special register of a number, GeneralProtectionFault(6) for 14 to 31 (R226, R228). -/
def specialAccess (n : RegNum) : Access SpecialReg :=
  match specialOf n with
  | some r => .done r
  | none => .reservedSpecial

/-- `MFS rd, spec` (R226). -/
def execMfs (rd spec : RegNum) (s : State) : Host.Outcome State Fault Refusal :=
  continueWith (s.conclude (specialAccess spec) fun r => (s.setReg rd (s.readSpecial r)).advance)

/-- `MTS spec, rs`; the advance follows also when the target is `I0` (R228). -/
def execMts (spec rs : RegNum) (s : State) : Host.Outcome State Fault Refusal :=
  continueWith (s.conclude (specialAccess spec) fun r => (s.writeSpecial r (s.reg rs)).advance)

/-- `OUT rd, rs1` (R230). -/
def execOut (rd rs1 : RegNum) (s : State) : Host.Outcome State Fault Refusal :=
  continueWith (s.ioWrite (s.portOf rd) (s.reg rs1)).advance

/-- `IN rd, rs1`: the data goes to `R[rs1]` (R231). -/
def execIn (rd rs1 : RegNum) (s : State) : Host.Outcome State Fault Refusal :=
  continueWith ((s.ioReadDone (s.portOf rd)).setReg rs1 (s.ioRead (s.portOf rd))).advance

end Sys2Proof.Machine
end

