-- ==== Sys2Proof/Machine/Dispatch.lean ====
section
/-! DEFINITION. The dispatch of a decoded instruction to its meaning (spec/40_execution_cycle.md R143,
spec/30_encoding.md R110): one arm per constructor of Instr. -/

namespace Sys2Proof.Machine

def exec (i : Instr) (s : State) : Host.Outcome State Fault Refusal :=
  match i with
  | .add rd rs1 rs2 => Sys2Proof.Machine.execAdd rd rs1 rs2 s
  | .sub rd rs1 rs2 => Sys2Proof.Machine.execSub rd rs1 rs2 s
  | .and rd rs1 rs2 => Sys2Proof.Machine.execAnd rd rs1 rs2 s
  | .or rd rs1 rs2 => Sys2Proof.Machine.execOr rd rs1 rs2 s
  | .xor rd rs1 rs2 => Sys2Proof.Machine.execXor rd rs1 rs2 s
  | .lsl rd rs1 shamt => Sys2Proof.Machine.execLsl rd rs1 shamt s
  | .lsr rd rs1 shamt => Sys2Proof.Machine.execLsr rd rs1 shamt s
  | .ldr rd rs1 imm => Sys2Proof.Machine.execLdr rd rs1 imm s
  | .str rd rs1 imm => Sys2Proof.Machine.execStr rd rs1 imm s
  | .jmp address => Sys2Proof.Machine.execJmp address s
  | .jal address => Sys2Proof.Machine.execJal address s
  | .beq imm => Sys2Proof.Machine.execBeq imm s
  | .bne imm => Sys2Proof.Machine.execBne imm s
  | .mov rd rs1 => Sys2Proof.Machine.execMov rd rs1 s
  | .cmp rd rs1 => Sys2Proof.Machine.execCmp rd rs1 s
  | .push rd => Sys2Proof.Machine.execPush rd s
  | .pop rd => Sys2Proof.Machine.execPop rd s
  | .call address => Sys2Proof.Machine.execCall address s
  | .ret => Sys2Proof.Machine.execRet s
  | .iret => Sys2Proof.Machine.execIret s
  | .nop => Sys2Proof.Machine.execNop s
  | .hlt => Sys2Proof.Machine.execHlt s
  | .mul rd rs1 rs2 => Sys2Proof.Machine.execMul rd rs1 rs2 s
  | .div rd rs1 rs2 => Sys2Proof.Machine.execDiv rd rs1 rs2 s
  | .mod rd rs1 rs2 => Sys2Proof.Machine.execMod rd rs1 rs2 s
  | .not rd rs1 => Sys2Proof.Machine.execNot rd rs1 s
  | .neg rd rs1 => Sys2Proof.Machine.execNeg rd rs1 s
  | .inc rd => Sys2Proof.Machine.execInc rd s
  | .dec rd => Sys2Proof.Machine.execDec rd s
  | .asl rd rs1 shamt => Sys2Proof.Machine.execAsl rd rs1 shamt s
  | .asr rd rs1 shamt => Sys2Proof.Machine.execAsr rd rs1 shamt s
  | .swi imm => Sys2Proof.Machine.execSwi imm s
  | .sext rd rs1 => Sys2Proof.Machine.execSext rd rs1 s
  | .zext rd rs1 => Sys2Proof.Machine.execZext rd rs1 s
  | .mfs rd spec => Sys2Proof.Machine.execMfs rd spec s
  | .mts spec rs => Sys2Proof.Machine.execMts spec rs s
  | .out rd rs1 => Sys2Proof.Machine.execOut rd rs1 s
  | .inp rd rs1 => Sys2Proof.Machine.execIn rd rs1 s

end Sys2Proof.Machine
end

