-- ==== Sys2Proof/Machine/Step.lean ====
section
/-! DEFINITION. One step (spec/40_execution_cycle.md R140 to R147): fetch, decode, execute; and the placing of an
instruction where the next step fetches it. -/

namespace Sys2Proof.Machine

/-- `step()`: no step runs when `halted` or `host_error` is set (R52, R140). A fetch or a decode that fails ends the
step as R141 and R142 say; a decoded instruction is run, its meaning holding the advance of `I0` or its own write
of it (R143, R144). -/
def step (s : State) : Host.Outcome State Fault Refusal :=
  if s.hostError then .fault .hostError
  else if s.halted then .fault .halted
  else
    match s.fetch with
    | .outOfRange => .next s.hostStop
    | .raise n ec => .next (s.trigger n ec)
    | .done w =>
      match decode w with
      | .error _ => .next (s.trigger Interrupt.invalidOpcode.number zeroCode)
      | .ok i => exec i s

/-- The instruction whose low `nbits` bits are those of `w`, every bit above them 0, stored where `step` fetches
next (log 6). -/
def State.withFetchWord (s : State) (nbits w : Nat) : State :=
  s.storeAtFetch (BitVec.ofNat 64 (w % 2 ^ nbits))

end Sys2Proof.Machine
end

