-- ==== Sys2Proof/Machine/Assembler.lean ====
section
/-! DEFINITION. The assembler's operand contract (spec/30_encoding.md R125 to R134): one line of text gives exactly one
word or one named error. A line is a list of characters. -/

namespace Sys2Proof.Machine

/-- The errors of a line (R133). `malformedLine` is a line that is not of the form R126 gives, or a number operand
that is no number (DESIGN CHOICE, log 8). -/
inductive AsmError where
  | unknownMnemonic
  | wrongArity
  | invalidRegister
  | immediateRange
  | malformedLine
deriving DecidableEq, Repr

/-- A piece of a line: a run of characters that are neither white space nor a comma, or a comma (R126). -/
inductive Token where
  | word (cs : List Char)
  | comma
deriving DecidableEq, Repr

/-- White space: blank, tab, carriage return, line feed. -/
def isBlank (c : Char) : Bool := c = ' ' || c = '\t' || c = '\r' || c = '\n'

/-- A letter as a capital, every other character as it is. -/
def capital (c : Char) : Char :=
  if 'a'.toNat ≤ c.toNat ∧ c.toNat ≤ 'z'.toNat then Char.ofNat (c.toNat - 32) else c

/-- The word being read, if any, put before the tokens after it. -/
def flushWord (acc : List Char) (ts : List Token) : List Token :=
  if acc.isEmpty then ts else .word acc.reverse :: ts

/-- The tokens of a line; `acc` is the word being read, last character first. -/
def tokens : List Char → List Char → List Token
  | acc, [] => flushWord acc []
  | acc, c :: cs =>
    if isBlank c then flushWord acc (tokens [] cs)
    else if c = ',' then flushWord acc (.comma :: tokens [] cs)
    else tokens (c :: acc) cs

/-- The operands after a first one: a comma, white space or both between two (R126). -/
def moreOperands : List Token → Option (List (List Char))
  | [] => some []
  | .word w :: ts => (moreOperands ts).map (w :: ·)
  | .comma :: .word w :: ts => (moreOperands ts).map (w :: ·)
  | _ => none

/-- The operands of a line, after its mnemonic. -/
def operandsOf : List Token → Option (List (List Char))
  | [] => some []
  | .word w :: ts => (moreOperands ts).map (w :: ·)
  | .comma :: _ => none

/-- The value of a decimal digit. -/
def decimalDigit (c : Char) : Option Nat :=
  if '0'.toNat ≤ c.toNat ∧ c.toNat ≤ '9'.toNat then some (c.toNat - '0'.toNat) else none

/-- The value of a hexadecimal digit, either case. -/
def hexDigit (c : Char) : Option Nat :=
  match decimalDigit c with
  | some d => some d
  | none =>
    if 'A'.toNat ≤ (capital c).toNat ∧ (capital c).toNat ≤ 'F'.toNat then
      some ((capital c).toNat - 'A'.toNat + 10)
    else none

/-- The number a run of digits writes, most significant first; `none` on a character that is no digit. -/
def digitsValue (digit : Char → Option Nat) (base : Nat) : Nat → List Char → Option Nat
  | acc, [] => some acc
  | acc, c :: cs =>
    match digit c with
    | some d => digitsValue digit base (acc * base + d) cs
    | none => none

/-- A run of one or more digits. -/
def numeral (digit : Char → Option Nat) (base : Nat) : List Char → Option Nat
  | [] => none
  | cs => digitsValue digit base 0 cs

/-- A number operand: decimal, 0x-prefixed hexadecimal, or a decimal with a leading minus (R128). -/
def numberOf : List Char → Option Int
  | '0' :: 'x' :: cs => (numeral hexDigit 16 cs).map Int.ofNat
  | '-' :: cs => (numeral decimalDigit 10 cs).map fun n => -(Int.ofNat n)
  | cs => (numeral decimalDigit 10 cs).map Int.ofNat

/-- The names of the special registers in the order of their numbers (R127, spec/10_state.md R30). -/
def specialNames : List String :=
  ["I0", "S0", "S1", "FR", "IVTR", "IE0", "IE1", "IE2", "IE3", "IE4", "TPDR", "TSP", "PRR", "MSR"]

/-- The error of an operand that should be a number and is none: the name of a special register is out of place there
(R127), anything else is no operand at all (DESIGN CHOICE, log 8). -/
def notANumber (cs : List Char) : AsmError :=
  if specialNames.any (fun n => n.toList == cs.map capital) then .invalidRegister else .malformedLine

/-- An immediate or address operand: 0 to 2^32 - 1, or -2^31 to -1 as its two's complement (R128). -/
def immediateOperand (cs : List Char) : Except AsmError Word :=
  match numberOf cs with
  | none => .error (notANumber cs)
  | some n => if -2 ^ 31 ≤ n ∧ n < 2 ^ 32 then .ok (BitVec.ofInt 32 n) else .error .immediateRange

/-- A shift amount: 0 to 63 (R128, R131). -/
def shamtOperand (cs : List Char) : Except AsmError (BitVec 6) :=
  match numberOf cs with
  | none => .error (notANumber cs)
  | some n => if 0 ≤ n ∧ n < 64 then .ok (BitVec.ofInt 6 n) else .error .immediateRange

/-- A general register: R and a decimal number 0 to 31, either case (R127). -/
def registerOperand (cs : List Char) : Except AsmError RegNum :=
  match cs with
  | c :: ds =>
    if capital c = 'R' then
      match numeral decimalDigit 10 ds with
      | some n => if n < 32 then .ok (BitVec.ofNat 5 n) else .error .invalidRegister
      | none => .error .invalidRegister
    else .error .invalidRegister
  | [] => .error .invalidRegister

/-- A special register by name, either case (R127). -/
def specialOperand (cs : List Char) : Except AsmError RegNum :=
  match specialNames.findIdx? (fun n => n.toList == cs.map capital) with
  | some k => .ok (BitVec.ofNat 5 k)
  | none => .error .invalidRegister

/-- The base register of `LDR` and `STR`: not the one whose number is the sentinel (R130). -/
def baseOperand (sentinel : RegNum) (cs : List Char) : Except AsmError RegNum :=
  match registerOperand cs with
  | .ok r => if r = sentinel then .error .invalidRegister else .ok r
  | .error e => .error e

/-- What operands a mnemonic takes and the instruction they make (R129). -/
inductive OperandForm where
  | rrr (mk : RegNum → RegNum → RegNum → Instr)
  | rrShift (mk : RegNum → RegNum → BitVec 6 → Instr)
  | rr (mk : RegNum → RegNum → Instr)
  | r (mk : RegNum → Instr)
  | rSpecial (mk : RegNum → RegNum → Instr)
  | specialR (mk : RegNum → RegNum → Instr)
  | rMemory (mk : RegNum → RegNum → Word → Instr)
  | number (mk : Word → Instr)
  | none (i : Instr)

/-- The mnemonics of the opcodes 0x01 to 0x16 and their operand forms (R110, R129). -/
def mnemonicsLow : List (String × OperandForm) :=
  [("ADD", .rrr .add), ("SUB", .rrr .sub), ("AND", .rrr .and), ("OR", .rrr .or), ("XOR", .rrr .xor),
   ("LSL", .rrShift .lsl), ("LSR", .rrShift .lsr), ("LDR", .rMemory .ldr), ("STR", .rMemory .str),
   ("JMP", .number .jmp), ("JAL", .number .jal), ("BEQ", .number .beq), ("BNE", .number .bne),
   ("MOV", .rr .mov), ("CMP", .rr .cmp), ("PUSH", .r .push), ("POP", .r .pop), ("CALL", .number .call),
   ("RET", .none .ret), ("IRET", .none .iret), ("NOP", .none .nop), ("HLT", .none .hlt)]

/-- The mnemonics of the opcodes 0x17 to 0x26 and their operand forms (R110, R129). -/
def mnemonicsHigh : List (String × OperandForm) :=
  [("MUL", .rrr .mul), ("DIV", .rrr .div), ("MOD", .rrr .mod), ("NOT", .rr .not), ("NEG", .rr .neg),
   ("INC", .r .inc), ("DEC", .r .dec), ("ASL", .rrShift .asl), ("ASR", .rrShift .asr), ("SWI", .number .swi),
   ("SEXT", .rr .sext), ("ZEXT", .rr .zext), ("MFS", .rSpecial .mfs), ("MTS", .specialR .mts),
   ("OUT", .rr .out), ("IN", .rr .inp)]

/-- The 38 mnemonics and their operand forms (R110, R129). -/
def mnemonicTable : List (String × OperandForm) := mnemonicsLow ++ mnemonicsHigh

/-- The operand form of a mnemonic, matched without regard to case (R126). -/
def formOf (cs : List Char) : Option OperandForm :=
  (mnemonicTable.find? fun row => row.1.toList == cs.map capital).map Prod.snd

/-- The instruction of an operand form and its operands (R129, R130). The number of operands is tested before any
operand, and the operands from left to right, so a line with several errors gets `wrongArity` first, then the error of
its leftmost wrong operand; R133 orders no errors (DESIGN CHOICE, log 8). -/
def OperandForm.build (sentinel : RegNum) (f : OperandForm) (ops : List (List Char)) : Except AsmError Instr :=
  match f, ops with
  | .rrr mk, [a, b, c] => do
    let rd ← registerOperand a
    let rs1 ← registerOperand b
    let rs2 ← registerOperand c
    return mk rd rs1 rs2
  | .rrShift mk, [a, b, c] => do
    let rd ← registerOperand a
    let rs1 ← registerOperand b
    let n ← shamtOperand c
    return mk rd rs1 n
  | .rr mk, [a, b] => do
    let rd ← registerOperand a
    let rs1 ← registerOperand b
    return mk rd rs1
  | .r mk, [a] => do
    let rd ← registerOperand a
    return mk rd
  | .rSpecial mk, [a, b] => do
    let rd ← registerOperand a
    let n ← specialOperand b
    return mk rd n
  | .specialR mk, [a, b] => do
    let n ← specialOperand a
    let rs ← registerOperand b
    return mk n rs
  | .rMemory mk, [a, b] => do
    let rd ← registerOperand a
    let imm ← immediateOperand b
    return mk rd sentinel imm
  | .rMemory mk, [a, b, c] => do
    let rd ← registerOperand a
    let rs1 ← baseOperand sentinel b
    let imm ← immediateOperand c
    return mk rd rs1 imm
  | .number mk, [a] => do
    let imm ← immediateOperand a
    return mk imm
  | .none i, [] => .ok i
  | _, _ => .error .wrongArity

/-- The instruction of a line (R125, R126). Which error a line with several gets is the model's choice, since R133
orders none: a line that begins with no mnemonic is `malformedLine`; then an `unknownMnemonic` comes before a
`malformedLine` in the separators of the operands, and that before `wrongArity` and the errors of the operands
(DESIGN CHOICE, log 8). -/
def parseLine (sentinel : RegNum) (line : List Char) : Except AsmError Instr :=
  match tokens [] line with
  | .word m :: ts =>
    match formOf m with
    | none => .error .unknownMnemonic
    | some f =>
      match operandsOf ts with
      | none => .error .malformedLine
      | some ops => f.build sentinel ops
  | _ => .error .malformedLine

/-- `assemble_line(text)`: exactly one word, or an error and no word (R125). -/
def assembleLine (sentinel : RegNum) (line : List Char) : Except AsmError InstrWord :=
  (parseLine sentinel line).map encode

/-- The words of a program in line order (R125). A program with a wrong line gives the error of the first such line
and no word: R133 makes an error local to its line and does not say what it makes of the program (DESIGN CHOICE,
log 8). -/
def assembleProgram (sentinel : RegNum) : List (List Char) → Except AsmError (List InstrWord)
  | [] => .ok []
  | l :: ls => do
    let w ← assembleLine sentinel l
    let ws ← assembleProgram sentinel ls
    return w :: ws

end Sys2Proof.Machine
end

