-- ==== Sys2Proof/Machine/HostAccess.lean ====
section
/-! DEFINITION. What the host may do while no step runs (spec/70_reset_and_hazards.md R280 to R292, spec/00_scope.md
R7): configure, map ports, reset, load an image, raw access, register presets, and read the answer of a step. -/

namespace Sys2Proof.Machine

/-- What a step answers to the host (spec/40_execution_cycle.md R146). -/
inductive StepAnswer where
  | continues
  | halted
  | hostError
deriving DecidableEq, Repr

/-- The answer of the step that left this state (R146): a step runs only when neither flag is set, so a set flag
was set by it. -/
def State.stepAnswer (s : State) : StepAnswer :=
  if s.hostError then .hostError else if s.halted then .halted else .continues

/-- A host action that is refused (R91, R290); no machine event. -/
inductive HostRefusal where
  | badMemSize
  | portAlreadyMapped
  | imageTooLarge
deriving DecidableEq, Repr

/-- configure: choose `MEM_SIZE`, which must satisfy `0 < MEM_SIZE <= 2^32` (R6, R290). -/
def configureMemory (c : Config) (memSize : Nat) : Except HostRefusal Config :=
  if 0 < memSize ∧ memSize ≤ 2 ^ 32 then .ok { c with memSize := memSize } else .error .badMemSize

/-- map a port; mapping a port twice is refused (R91). -/
def mapPort (c : Config) (p : Port) : Except HostRefusal Config :=
  if c.ioMapped.contains p then .error .portAlreadyMapped else .ok { c with ioMapped := c.ioMapped ++ [p] }

/-- `reset()`, in any state, halted and host_error included (R280, R281): all owned state is put back; the
parameters, the ports and the environment are not part of the block and stay. -/
def State.hostReset (s : State) : State :=
  { State.resetWith s.cfg with ioAnswers := s.ioAnswers, ioLog := s.ioLog }

/-- load image: the bytes copied into physical memory from `base` up; refused when they do not fit in
`[0, MEM_SIZE)`; `I0` is not changed (R290, R291). -/
def State.loadImage (s : State) (base : Nat) (image : List Byte) : Except HostRefusal State :=
  if base + image.length ≤ s.cfg.memSize then .ok (s.setMem (Memory.writeBytes s.mem base image))
  else .error .imageTooLarge

/-- The image of a program: its words one after the other, each little-endian (spec/20_memory.md R61). -/
def imageOf (words : List InstrWord) : List Byte := (words.map fun w => bytesOf 8 w.toNat).flatten

/-- raw read of a 32-bit word: the value, or the stop of an access out of range (R290, R66). -/
def State.rawRead (s : State) (pa : Word) : Option Word × State :=
  match s.physRead pa with
  | some v => (some v, s)
  | none => (none, s.hostStop)

/-- raw write of a 32-bit word; out of range nothing is written and the machine stops (R290, R67). -/
def State.rawWrite (s : State) (pa v : Word) : State :=
  match s.physWrite pa v with
  | some m => s.setMem m
  | none => s.hostStop

/-- preset of a special register by the host, `PRR` included (R290). -/
def State.presetSpecial (s : State) (r : SpecialReg) (v : Word) : State :=
  match r with
  | .prr => { s with prr := v.setWidth 8 }
  | r => s.writeSpecial r v

/-- run: at most `n` steps, repeated while the answer is `Continue` (R290); the state after them. -/
def State.run : Nat → State → State
  | 0, s => s
  | n + 1, s =>
    match step s with
    | .next t => if t.stepAnswer = .continues then State.run n t else t
    | _ => s

end Sys2Proof.Machine
end

