-- ==== Sys2Proof/Safety.lean ====
section
/-! DEFINITION. The terms the claims are stated in: sound states and a correct end of a run (spec/10_state.md R28, R52;
spec/20_memory.md R60, R68; spec/70_reset_and_hazards.md R292), what a step leaves unchanged, what an address maps
to, and the trap entry written out. They are written from the rules in terms of plain fields, bits and raw reads,
so that a claim does not repeat the machine's own operations. -/

namespace Sys2Proof.Machine

/-! ### Sound states -/

/-- The reserved bits 7, 5, 4, 3 of `FR` are 0 (R28). -/
abbrev State.reservedFlagsZero (s : State) : Prop := s.fr &&& 0xB8#8 = 0#8

/-- Memory is in its canonical form and lists nothing outside `[0, MEM_SIZE)` (R60). -/
abbrev State.memorySound (s : State) : Prop := Memory.wf s.mem ∧ Memory.within s.mem s.cfg.memSize

/-- The invariant of the machine. -/
abbrev State.Inv (s : State) : Prop := s.memorySound ∧ s.reservedFlagsZero

/-- A step may run (R140). -/
abbrev State.running (s : State) : Prop := s.halted = false ∧ s.hostError = false

/-- The only correct end of a run: halted, with no host error (R146, R292). -/
abbrev State.correctEnd (s : State) : Prop := s.halted = true ∧ s.hostError = false

/-! ### What stays as it was -/

/-- Every general register but those listed is unchanged. -/
def RegsKeptBut (s t : State) (written : List RegNum) : Prop := ∀ k, k ∉ written → t.reg k = s.reg k

/-- Every special register but those listed reads as before. -/
def SpecialsKeptBut (s t : State) (written : List SpecialReg) : Prop :=
  ∀ r, r ∉ written → t.readSpecial r = s.readSpecial r

/-- Every byte of memory reads as before. -/
def MemoryKept (s t : State) : Prop := ∀ a, Memory.read t.mem a = Memory.read s.mem a

/-- Every byte of memory but the four from `pa` up reads as before. -/
def MemoryKeptBut (s t : State) (pa : Nat) : Prop :=
  ∀ a, a < pa ∨ pa + 4 ≤ a → Memory.read t.mem a = Memory.read s.mem a

/-- The four bytes from `pa` up hold `v`, little-endian (R61). -/
def MemoryHolds (t : State) (pa : Nat) (v : Word) : Prop :=
  Memory.read t.mem pa = v.extractLsb' 0 8 ∧ Memory.read t.mem (pa + 1) = v.extractLsb' 8 8 ∧
  Memory.read t.mem (pa + 2) = v.extractLsb' 16 8 ∧ Memory.read t.mem (pa + 3) = v.extractLsb' 24 8

/-- The terminal flags, the parameters and the environment's side are unchanged. -/
def OutsideKept (s t : State) : Prop :=
  t.halted = s.halted ∧ t.hostError = s.hostError ∧ t.cfg = s.cfg ∧ t.ioAnswers = s.ioAnswers ∧ t.ioLog = s.ioLog

/-- The four flags, and 0 in the reserved bits of `FR` (R28). -/
def FlagsAre (t : State) (c z sg v : Bool) : Prop :=
  t.fr[0] = c ∧ t.fr[1] = z ∧ t.fr[2] = sg ∧ t.fr[6] = v ∧ t.fr &&& 0xB8#8 = 0#8

/-- What an arithmetic or logic instruction does: `r` in `R[rd]`, all four flags with Z and S from `r`, `I0` past
the instruction, and nothing else (R144, R150). -/
def AluEffect (s t : State) (rd : RegNum) (r : Word) (c v : Bool) : Prop :=
  t.reg rd = r ∧ FlagsAre t c (decide (r = 0#32)) (r[31]) v ∧ t.i0 = s.i0 + 8#32 ∧
  RegsKeptBut s t [rd] ∧ SpecialsKeptBut s t [.i0, .fr] ∧ MemoryKept s t ∧ OutsideKept s t

/-- What a register move does: `r` in `R[rd]`, `I0` past the instruction, and nothing else (R180). -/
def MoveEffect (s t : State) (rd : RegNum) (r : Word) : Prop :=
  t.reg rd = r ∧ t.i0 = s.i0 + 8#32 ∧
  RegsKeptBut s t [rd] ∧ SpecialsKeptBut s t [.i0] ∧ MemoryKept s t ∧ OutsideKept s t

/-- What a store does to memory: the four bytes from `pa` up hold `v`, every other byte reads as before. Storing into a
memory list that is not in its canonical form, which no run reaches, is left open. -/
def StoreEffect (s t : State) (pa : Nat) (v : Word) : Prop :=
  MemoryKeptBut s t pa ∧ (Memory.wf s.mem = true → MemoryHolds t pa v)

/-- The word in the four bytes from `pa` up, most significant byte at the highest address (R61). -/
def wordAt (s : State) (pa : Nat) : Word :=
  Memory.read s.mem (pa + 3) ++ Memory.read s.mem (pa + 2) ++ Memory.read s.mem (pa + 1) ++ Memory.read s.mem pa

/-- The 14 special registers in the order of their numbers, 8-bit ones zero-extended (R30, R31). -/
def specialsInOrder (s : State) : List Word :=
  [s.i0, s.s0, s.s1, s.fr.setWidth 32, s.ivtr, s.ie0.setWidth 32, s.ie1, s.ie2, s.ie3.setWidth 32, s.ie4,
   s.tpdr, s.tsp, s.prr.setWidth 32, s.msr]

/-- What a write of `v` to special register number `n` leaves in it, when it held `old` (R31, R46, R228). -/
def specialStored (n : Nat) (old v : Word) : Word :=
  if n = 12 then old else if n = 3 then v &&& 0x47#32 else if n = 5 ∨ n = 8 then v &&& 0xFF#32 else v

/-! ### What an address maps to -/

/-- Both entries of `va` are present, the walk gives `pde` and `pte`, and `va` translates to `pa` (R70 to R72). -/
abbrev State.Maps (s : State) (va pde pte pa : Word) : Prop :=
  s.physRead (s.tpdr + 4#32 * (va >>> 22)) = some pde ∧ pde[0] = true ∧
  s.physRead ((pde &&& 0xFFFFF000#32) + 4#32 * ((va >>> 12) &&& 0x3FF#32)) = some pte ∧ pte[0] = true ∧
  pa = (pte &&& 0xFFFFF000#32) ||| (va &&& 0xFFF#32)

/-- The entry of `va` is not present at one of the two levels (R73). -/
def State.Missing (s : State) (va : Word) : Prop :=
  ∃ pde, s.physRead (s.tpdr + 4#32 * (va >>> 22)) = some pde ∧
    (pde[0] = false ∨
      pde[0] = true ∧ ∃ pte, pte[0] = false ∧
        s.physRead ((pde &&& 0xFFFFF000#32) + 4#32 * ((va >>> 12) &&& 0x3FF#32)) = some pte)

/-- The walk of `va` reads an entry outside physical memory (R68, R72). -/
def State.WalkLeavesMemory (s : State) (va : Word) : Prop :=
  s.physRead (s.tpdr + 4#32 * (va >>> 22)) = none ∨
    ∃ pde, s.physRead (s.tpdr + 4#32 * (va >>> 22)) = some pde ∧ pde[0] = true ∧
      s.physRead ((pde &&& 0xFFFFF000#32) + 4#32 * ((va >>> 12) &&& 0x3FF#32)) = none

/-- The mode may access through these entries: kernel mode, or `kernel_only` clear in both (R76). -/
abbrev State.MayAccess (s : State) (pde pte : Word) : Prop :=
  s.msr[31] = true ∨ pde[10] = false ∧ pte[10] = false

/-- The virtual address of an instruction's data access (R190, R194, R196, R204, R205). -/
def dataAddressOf (i : Instr) (s : State) : Option Word :=
  match i with
  | .ldr _ rs1 imm | .str _ rs1 imm => some (if rs1 = s.cfg.absSentinel then imm else s.reg rs1 + imm)
  | .push _ | .call _ => some (s.s0 - 4#32)
  | .pop _ | .ret => some s.s0
  | .add _ _ _ | .sub _ _ _ | .and _ _ _ | .or _ _ _ | .xor _ _ _ | .mul _ _ _ | .div _ _ _ | .mod _ _ _ => none
  | .lsl _ _ _ | .lsr _ _ _ | .asl _ _ _ | .asr _ _ _ | .not _ _ | .neg _ _ | .inc _ | .dec _ => none
  | .mov _ _ | .cmp _ _ | .sext _ _ | .zext _ _ | .jmp _ | .jal _ | .beq _ | .bne _ | .nop | .hlt => none
  | .swi _ | .iret | .mfs _ _ | .mts _ _ | .out _ _ | .inp _ _ => none

/-- The instruction's data access is a write (R65). -/
def storesData : Instr → Bool
  | .str _ _ _ | .push _ | .call _ => true
  | .add _ _ _ | .sub _ _ _ | .and _ _ _ | .or _ _ _ | .xor _ _ _ | .mul _ _ _ | .div _ _ _ | .mod _ _ _ => false
  | .lsl _ _ _ | .lsr _ _ _ | .asl _ _ _ | .asr _ _ _ | .not _ _ | .neg _ _ | .inc _ | .dec _ => false
  | .mov _ _ | .cmp _ _ | .sext _ _ | .zext _ _ | .ldr _ _ _ | .pop _ | .jmp _ | .jal _ | .beq _ | .bne _ => false
  | .ret | .nop | .hlt | .swi _ | .iret | .mfs _ _ | .mts _ _ | .out _ _ | .inp _ _ => false

/-- The destination of an R-type instruction (R163). -/
def aluDest : Instr → Option RegNum
  | .add rd _ _ | .sub rd _ _ | .and rd _ _ | .or rd _ _ | .xor rd _ _ | .mul rd _ _ | .div rd _ _ | .mod rd _ _ => some rd
  | .lsl rd _ _ | .lsr rd _ _ | .asl rd _ _ | .asr rd _ _ => some rd
  | .not rd _ | .neg rd _ | .inc rd | .dec rd => some rd
  | .mov _ _ | .cmp _ _ | .sext _ _ | .zext _ _ | .ldr _ _ _ | .str _ _ _ | .push _ | .pop _ => none
  | .jmp _ | .jal _ | .beq _ | .bne _ | .call _ | .ret | .nop | .hlt => none
  | .swi _ | .iret | .mfs _ _ | .mts _ _ | .out _ _ | .inp _ _ => none

/-- The instruction sets `I0` itself (R144 cases (a) and (b)), raises an interrupt by design (`SWI`), or writes `I0`
before the advance (`MTS` to `I0`, R148). -/
def setsPc : Instr → Bool
  | .jmp _ | .jal _ | .call _ | .ret | .iret | .beq _ | .bne _ | .swi _ => true
  | .mts spec _ => spec == 0#5
  | .add _ _ _ | .sub _ _ _ | .and _ _ _ | .or _ _ _ | .xor _ _ _ | .mul _ _ _ | .div _ _ _ | .mod _ _ _ => false
  | .lsl _ _ _ | .lsr _ _ _ | .asl _ _ _ | .asr _ _ _ | .not _ _ | .neg _ _ | .inc _ | .dec _ => false
  | .mov _ _ | .cmp _ _ | .sext _ _ | .zext _ _ | .ldr _ _ _ | .str _ _ _ | .push _ | .pop _ => false
  | .nop | .hlt | .mfs _ _ | .out _ _ | .inp _ _ => false

/-- The bits of a word that decide its instruction: the opcode and the fields R118 lists. -/
def usedBits : Instr → InstrWord
  | .add _ _ _ | .sub _ _ _ | .and _ _ _ | .or _ _ _ | .xor _ _ _ | .mul _ _ _ | .div _ _ _ | .mod _ _ _ =>
    0xFFFFF80000000000#64
  | .lsl _ _ _ | .lsr _ _ _ | .asl _ _ _ | .asr _ _ _ => 0xFFFF07E000000000#64
  | .not _ _ | .neg _ _ | .mov _ _ | .cmp _ _ | .sext _ _ | .zext _ _ | .mfs _ _ | .mts _ _ | .out _ _ | .inp _ _ =>
    0xFFFF000000000000#64
  | .inc _ | .dec _ | .push _ | .pop _ => 0xFFE0000000000000#64
  | .ldr _ _ _ | .str _ _ _ => 0xFFFFFFFFFFFF0000#64
  | .beq _ | .bne _ | .swi _ => 0xFC00FFFFFFFF0000#64
  | .jmp _ | .jal _ | .call _ => 0xFFFFFFFFFC000000#64
  | .ret | .iret | .nop | .hlt => 0xFC00000000000000#64

/-- The bits of a word that are not reserved in its format (R102 to R104). -/
def formatBits : Format → InstrWord
  | .r => 0xFFFFFFFFE0000000#64
  | .i => 0xFFFFFFFFFFFF0000#64
  | .j => 0xFFFFFFFFFC000000#64

/-! ### The trap entry, written out -/

/-- The context is saved, the error code recorded, kernel mode forced, `I0` at the handler; nothing else is changed
(R250, R251). -/
def TrapTaken (s t : State) (n ec : Byte) : Prop :=
  ∃ handler, s.physRead (s.ivtr + 4#32 * n.setWidth 32) = some handler ∧
    t = { s with ie0 := ec, ie1 := s.i0, ie2 := s.s0, ie3 := s.fr, ie4 := s.msr,
                 msr := s.msr ||| 0x80000000#32, i0 := handler }

/-- The machine has stopped with `host_error` set and nothing else written (R68). -/
def HostStopped (s t : State) : Prop := t = { s with hostError := true }

/-- The vector of interrupt `n` lies in physical memory (R252, R253). -/
abbrev State.vectorInMemory (s : State) (n : Byte) : Prop :=
  (s.ivtr + 4#32 * n.setWidth 32).toNat + 4 ≤ s.cfg.memSize

/-- Interrupt `n` with code `ec` is delivered, or, when its vector is outside memory, the machine stops (R250, R253); that
the stop is a next state is the model's choice (log 4). -/
def Trapped (s t : State) (n ec : Byte) : Prop :=
  (s.vectorInMemory n → TrapTaken s t n ec) ∧ (¬ s.vectorInMemory n → HostStopped s t)

/-- The eight bytes at `I0` lie in physical memory, in two halves (R141). -/
abbrev State.fetchInMemory (s : State) : Prop :=
  s.i0.toNat + 4 ≤ s.cfg.memSize ∧ (s.i0 + 4#32).toNat + 4 ≤ s.cfg.memSize

/-- The eight bytes at `I0` as one little-endian word (R61, R141). -/
def State.wordAtPc (s : State) : InstrWord :=
  wordAt s (s.i0 + 4#32).toNat ++ wordAt s s.i0.toNat

end Sys2Proof.Machine
end

