-- ==== Sys2Proof/Certificates/Slice0/Obligations.lean ====
section
/-! DEFINITION. The statements for the provers, each from a numbered rule of spec/ or derived from the rules its entry in
OBLIGATIONS.json cites. The terms they use (`AluEffect`, `State.Maps`, `TrapTaken`, ...) stand in Sys2Proof/Safety.lean. -/

open Sys2Proof Sys2Proof.Machine

/-! ### Arithmetic and logic (spec/41_alu.md) -/

/-- R151. -/
def Obligations.AddWritesSumAndFlags : Prop :=
  (∀ w : InstrWord, w.extractLsb' 58 6 = 0x01#6 →
    decode w = .ok (.add (w.extractLsb' 53 5) (w.extractLsb' 48 5) (w.extractLsb' 43 5))) ∧
  ∀ (rd rs1 rs2 : RegNum) (s : State), ∃ t, exec (.add rd rs1 rs2) s = .next t ∧
    AluEffect s t rd (BitVec.ofNat 32 ((s.reg rs1).toNat + (s.reg rs2).toNat))
      (decide (2 ^ 32 ≤ (s.reg rs1).toNat + (s.reg rs2).toNat))
      ((s.reg rs1)[31] == (s.reg rs2)[31] && (s.reg rs1 + s.reg rs2)[31] != (s.reg rs1)[31])

/-- R152. -/
def Obligations.SubWritesDifferenceAndFlags : Prop :=
  (∀ w : InstrWord, w.extractLsb' 58 6 = 0x02#6 →
    decode w = .ok (.sub (w.extractLsb' 53 5) (w.extractLsb' 48 5) (w.extractLsb' 43 5))) ∧
  ∀ (rd rs1 rs2 : RegNum) (s : State), ∃ t, exec (.sub rd rs1 rs2) s = .next t ∧
    AluEffect s t rd (BitVec.ofInt 32 ((s.reg rs1).toNat - (s.reg rs2).toNat : Int))
      (decide ((s.reg rs1).toNat < (s.reg rs2).toNat))
      ((s.reg rs1)[31] != (s.reg rs2)[31] && (s.reg rs1 - s.reg rs2)[31] != (s.reg rs1)[31])

/-- R153, R154, R155. -/
def Obligations.AndOrXorWriteBitwiseResult : Prop :=
  (∀ w : InstrWord,
    (w.extractLsb' 58 6 = 0x03#6 →
      decode w = .ok (.and (w.extractLsb' 53 5) (w.extractLsb' 48 5) (w.extractLsb' 43 5))) ∧
    (w.extractLsb' 58 6 = 0x04#6 →
      decode w = .ok (.or (w.extractLsb' 53 5) (w.extractLsb' 48 5) (w.extractLsb' 43 5))) ∧
    (w.extractLsb' 58 6 = 0x05#6 →
      decode w = .ok (.xor (w.extractLsb' 53 5) (w.extractLsb' 48 5) (w.extractLsb' 43 5)))) ∧
  ∀ (rd rs1 rs2 : RegNum) (s : State),
    (∃ t, exec (.and rd rs1 rs2) s = .next t ∧ AluEffect s t rd (s.reg rs1 &&& s.reg rs2) false false) ∧
    (∃ t, exec (.or rd rs1 rs2) s = .next t ∧ AluEffect s t rd (s.reg rs1 ||| s.reg rs2) false false) ∧
    (∃ t, exec (.xor rd rs1 rs2) s = .next t ∧ AluEffect s t rd (s.reg rs1 ^^^ s.reg rs2) false false)

/-- R156. -/
def Obligations.MulWritesLowProductAndFlags : Prop :=
  (∀ w : InstrWord, w.extractLsb' 58 6 = 0x17#6 →
    decode w = .ok (.mul (w.extractLsb' 53 5) (w.extractLsb' 48 5) (w.extractLsb' 43 5))) ∧
  ∀ (rd rs1 rs2 : RegNum) (s : State), ∃ t, exec (.mul rd rs1 rs2) s = .next t ∧
    AluEffect s t rd (BitVec.ofNat 32 ((s.reg rs1).toNat * (s.reg rs2).toNat))
      (decide (2 ^ 32 ≤ (s.reg rs1).toNat * (s.reg rs2).toNat))
      (decide ((s.reg rs1).toInt * (s.reg rs2).toInt < -2 ^ 31 ∨ 2 ^ 31 - 1 < (s.reg rs1).toInt * (s.reg rs2).toInt)) ∧
    BitVec.ofNat 32 ((s.reg rs1).toNat * (s.reg rs2).toNat) = BitVec.ofInt 32 ((s.reg rs1).toInt * (s.reg rs2).toInt)

/-- R157 with `DIV_SIGNED` false; the signed reading of D9 with it true. -/
def Obligations.DivWritesQuotient : Prop :=
  ∀ (rd rs1 rs2 : RegNum) (s : State), s.reg rs2 ≠ 0#32 → ∃ t, exec (.div rd rs1 rs2) s = .next t ∧
    (s.cfg.divSigned = false →
      AluEffect s t rd (BitVec.ofNat 32 ((s.reg rs1).toNat / (s.reg rs2).toNat)) false false) ∧
    (s.cfg.divSigned = true →
      AluEffect s t rd (BitVec.ofInt 32 ((s.reg rs1).toInt.tdiv (s.reg rs2).toInt)) false false)

/-- R158 with `DIV_SIGNED` false; the signed reading of D9 with it true. -/
def Obligations.ModWritesRemainder : Prop :=
  ∀ (rd rs1 rs2 : RegNum) (s : State), s.reg rs2 ≠ 0#32 → ∃ t, exec (.mod rd rs1 rs2) s = .next t ∧
    (s.cfg.divSigned = false →
      AluEffect s t rd (BitVec.ofNat 32 ((s.reg rs1).toNat - (s.reg rs2).toNat * ((s.reg rs1).toNat / (s.reg rs2).toNat)))
        false false) ∧
    (s.cfg.divSigned = true →
      AluEffect s t rd (BitVec.ofInt 32 ((s.reg rs1).toInt.tmod (s.reg rs2).toInt)) false false)

/-- R157, R158: a zero divisor traps with nothing else changed. -/
def Obligations.DivModByZeroTrap : Prop :=
  ∀ (rd rs1 rs2 : RegNum) (s : State), s.reg rs2 = 0#32 →
    (∃ t, exec (.div rd rs1 rs2) s = .next t ∧ Trapped s t 0x00#8 0#8) ∧
    (∃ t, exec (.mod rd rs1 rs2) s = .next t ∧ Trapped s t 0x00#8 0#8)

/-- R159, R160. -/
def Obligations.NotNegWriteResult : Prop :=
  (∀ w : InstrWord,
    (w.extractLsb' 58 6 = 0x1A#6 → decode w = .ok (.not (w.extractLsb' 53 5) (w.extractLsb' 48 5))) ∧
    (w.extractLsb' 58 6 = 0x1B#6 → decode w = .ok (.neg (w.extractLsb' 53 5) (w.extractLsb' 48 5)))) ∧
  ∀ (rd rs1 : RegNum) (s : State),
    (∃ t, exec (.not rd rs1) s = .next t ∧ AluEffect s t rd (~~~ s.reg rs1) false false) ∧
    (∃ t, exec (.neg rd rs1) s = .next t ∧
      AluEffect s t rd (BitVec.ofNat 32 (2 ^ 32 - (s.reg rs1).toNat)) false false)

/-- R161, R162. -/
def Obligations.IncDecWriteResult : Prop :=
  (∀ w : InstrWord,
    (w.extractLsb' 58 6 = 0x1C#6 → decode w = .ok (.inc (w.extractLsb' 53 5))) ∧
    (w.extractLsb' 58 6 = 0x1D#6 → decode w = .ok (.dec (w.extractLsb' 53 5)))) ∧
  ∀ (rd : RegNum) (s : State),
    (∃ t, exec (.inc rd) s = .next t ∧ AluEffect s t rd (BitVec.ofNat 32 ((s.reg rd).toNat + 1)) false false) ∧
    (∃ t, exec (.dec rd) s = .next t ∧
      AluEffect s t rd (BitVec.ofNat 32 ((s.reg rd).toNat + (2 ^ 32 - 1))) false false)

/-! ### Shifts (spec/42_shift.md) -/

/-- R171, R173. -/
def Obligations.LslAslShiftLeft : Prop :=
  (∀ w : InstrWord,
    (w.extractLsb' 58 6 = 0x06#6 →
      decode w = .ok (.lsl (w.extractLsb' 53 5) (w.extractLsb' 48 5) (w.extractLsb' 37 6))) ∧
    (w.extractLsb' 58 6 = 0x1E#6 →
      decode w = .ok (.asl (w.extractLsb' 53 5) (w.extractLsb' 48 5) (w.extractLsb' 37 6)))) ∧
  ∀ (rd rs1 : RegNum) (n : BitVec 6) (s : State),
    (∃ t, exec (.lsl rd rs1 n) s = .next t ∧
      AluEffect s t rd (BitVec.ofNat 32 ((s.reg rs1).toNat * 2 ^ n.toNat))
        (decide (1 ≤ n.toNat ∧ n.toNat ≤ 32) && (s.reg rs1).getLsbD (32 - n.toNat)) false) ∧
    (∃ t, exec (.asl rd rs1 n) s = .next t ∧
      AluEffect s t rd (BitVec.ofNat 32 ((s.reg rs1).toNat * 2 ^ n.toNat))
        (decide (1 ≤ n.toNat ∧ n.toNat ≤ 32) && (s.reg rs1).getLsbD (32 - n.toNat)) false)

/-- R172. -/
def Obligations.LsrShiftsRight : Prop :=
  (∀ w : InstrWord, w.extractLsb' 58 6 = 0x07#6 →
    decode w = .ok (.lsr (w.extractLsb' 53 5) (w.extractLsb' 48 5) (w.extractLsb' 37 6))) ∧
  ∀ (rd rs1 : RegNum) (n : BitVec 6) (s : State), ∃ t, exec (.lsr rd rs1 n) s = .next t ∧
    AluEffect s t rd (BitVec.ofNat 32 ((s.reg rs1).toNat / 2 ^ n.toNat))
      (decide (1 ≤ n.toNat ∧ n.toNat ≤ 32) && (s.reg rs1).getLsbD (n.toNat - 1)) false

/-- R174: the carry is `a[n-1]` up to 32 and the sign bit beyond. -/
def Obligations.AsrShiftsWithSign : Prop :=
  (∀ w : InstrWord, w.extractLsb' 58 6 = 0x1F#6 →
    decode w = .ok (.asr (w.extractLsb' 53 5) (w.extractLsb' 48 5) (w.extractLsb' 37 6))) ∧
  ∀ (rd rs1 : RegNum) (n : BitVec 6) (s : State), ∃ t, exec (.asr rd rs1 n) s = .next t ∧
    AluEffect s t rd (BitVec.ofInt 32 ((s.reg rs1).toInt / 2 ^ n.toNat))
      (decide (1 ≤ n.toNat) && (s.reg rs1).getLsbD (min (n.toNat - 1) 31)) false

/-! ### Move, compare, extension (spec/43_move_compare.md) -/

/-- R180. -/
def Obligations.MovCopiesRegister : Prop :=
  (∀ w : InstrWord, w.extractLsb' 58 6 = 0x0E#6 →
    decode w = .ok (.mov (w.extractLsb' 53 5) (w.extractLsb' 48 5))) ∧
  ∀ (rd rs1 : RegNum) (s : State), ∃ t, exec (.mov rd rs1) s = .next t ∧ MoveEffect s t rd (s.reg rs1)

/-- R181, with what the flags say of the operands after `CMP x, y`. -/
def Obligations.CmpWritesFlagsOnly : Prop :=
  (∀ w : InstrWord, w.extractLsb' 58 6 = 0x0F#6 →
    decode w = .ok (.cmp (w.extractLsb' 53 5) (w.extractLsb' 48 5))) ∧
  ∀ (rd rs1 : RegNum) (s : State), ∃ t, exec (.cmp rd rs1) s = .next t ∧
    FlagsAre t (decide ((s.reg rs1).toNat < (s.reg rd).toNat)) (decide (s.reg rs1 = s.reg rd))
      (s.reg rs1 - s.reg rd)[31]
      ((s.reg rs1)[31] != (s.reg rd)[31] && (s.reg rs1 - s.reg rd)[31] != (s.reg rs1)[31]) ∧
    (t.fr[1] = true ↔ s.reg rd = s.reg rs1) ∧ (t.fr[0] = true ↔ (s.reg rs1).toNat < (s.reg rd).toNat) ∧
    (t.fr[2] ≠ t.fr[6] ↔ (s.reg rs1).toInt < (s.reg rd).toInt) ∧
    t.i0 = s.i0 + 8#32 ∧ RegsKeptBut s t [] ∧ SpecialsKeptBut s t [.i0, .fr] ∧ MemoryKept s t ∧ OutsideKept s t

/-- R182, R183, for both settings of `EXT_SRC_BITS` (D12). -/
def Obligations.SextZextExtendLowBits : Prop :=
  (∀ w : InstrWord,
    (w.extractLsb' 58 6 = 0x21#6 → decode w = .ok (.sext (w.extractLsb' 53 5) (w.extractLsb' 48 5))) ∧
    (w.extractLsb' 58 6 = 0x22#6 → decode w = .ok (.zext (w.extractLsb' 53 5) (w.extractLsb' 48 5)))) ∧
  ∀ (rd rs1 : RegNum) (s : State),
    (s.cfg.extSrc = .bits16 →
      (∃ t, exec (.sext rd rs1) s = .next t ∧ MoveEffect s t rd
        (if (s.reg rs1)[15] = true then (s.reg rs1 &&& 0xFFFF#32) ||| 0xFFFF0000#32 else s.reg rs1 &&& 0xFFFF#32)) ∧
      (∃ t, exec (.zext rd rs1) s = .next t ∧ MoveEffect s t rd (s.reg rs1 &&& 0xFFFF#32))) ∧
    (s.cfg.extSrc = .bits8 →
      (∃ t, exec (.sext rd rs1) s = .next t ∧ MoveEffect s t rd
        (if (s.reg rs1)[7] = true then (s.reg rs1 &&& 0xFF#32) ||| 0xFFFFFF00#32 else s.reg rs1 &&& 0xFF#32)) ∧
      (∃ t, exec (.zext rd rs1) s = .next t ∧ MoveEffect s t rd (s.reg rs1 &&& 0xFF#32)))

/-! ### Loads, stores and the stack (spec/44_load_store_stack.md) -/

/-- R190, R191: the completing load, both addressing modes. -/
def Obligations.LdrLoadsMappedWord : Prop :=
  ∀ (rd rs1 : RegNum) (imm : Word) (s : State) (pde pte pa : Word),
    s.Maps (if rs1 = s.cfg.absSentinel then imm else s.reg rs1 + imm) pde pte pa →
    (s.cfg.checkReads = false ∨ s.MayAccess pde pte) → pa.toNat + 4 ≤ s.cfg.memSize →
    ∃ t, exec (.ldr rd rs1 imm) s = .next t ∧ MoveEffect s t rd (wordAt s pa.toNat)

/-- R190, R192: the completing store, both addressing modes. -/
def Obligations.StrStoresMappedWord : Prop :=
  ∀ (rd rs1 : RegNum) (imm : Word) (s : State) (pde pte pa : Word),
    s.Maps (if rs1 = s.cfg.absSentinel then imm else s.reg rs1 + imm) pde pte pa →
    s.MayAccess pde pte → pa.toNat + 4 ≤ s.cfg.memSize →
    ∃ t, exec (.str rd rs1 imm) s = .next t ∧ StoreEffect s t pa.toNat (s.reg rd) ∧ t.i0 = s.i0 + 8#32 ∧
      RegsKeptBut s t [] ∧ SpecialsKeptBut s t [.i0] ∧ OutsideKept s t

/-- R194: the completing push. -/
def Obligations.PushStoresBelowStackPointer : Prop :=
  ∀ (rd : RegNum) (s : State) (pde pte pa : Word),
    s.Maps (s.s0 - 4#32) pde pte pa → s.MayAccess pde pte → pa.toNat + 4 ≤ s.cfg.memSize →
    ∃ t, exec (.push rd) s = .next t ∧ StoreEffect s t pa.toNat (s.reg rd) ∧ t.s0 = s.s0 - 4#32 ∧
      t.i0 = s.i0 + 8#32 ∧ RegsKeptBut s t [] ∧ SpecialsKeptBut s t [.i0, .s0] ∧ OutsideKept s t

/-- R196: the completing pop. -/
def Obligations.PopLoadsAndRaisesStackPointer : Prop :=
  ∀ (rd : RegNum) (s : State) (pde pte pa : Word),
    s.Maps s.s0 pde pte pa → (s.cfg.checkReads = false ∨ s.MayAccess pde pte) → pa.toNat + 4 ≤ s.cfg.memSize →
    ∃ t, exec (.pop rd) s = .next t ∧ t.reg rd = wordAt s pa.toNat ∧ t.s0 = s.s0 + 4#32 ∧ t.i0 = s.i0 + 8#32 ∧
      RegsKeptBut s t [rd] ∧ SpecialsKeptBut s t [.i0, .s0] ∧ MemoryKept s t ∧ OutsideKept s t

/-- R73: a data access (LDR STR PUSH POP CALL RET) through an entry that is not present delivers PageFault(0). -/
def Obligations.MissingPageTraps : Prop :=
  ∀ (i : Instr) (s : State) (va : Word), dataAddressOf i s = some va → s.Missing va →
    ∃ t, exec i s = .next t ∧ Trapped s t 0x02#8 0#8

/-- R76: a user access through a kernel-only entry delivers GeneralProtectionFault(1): every write, and every read
when `CHECK_READS` is true. -/
def Obligations.KernelPageDeniedToUser : Prop :=
  ∀ (i : Instr) (s : State) (va pde pte pa : Word), dataAddressOf i s = some va → s.Maps va pde pte pa →
    s.msr[31] = false → (pde[10] = true ∨ pte[10] = true) → (storesData i = true ∨ s.cfg.checkReads = true) →
    ∃ t, exec i s = .next t ∧ Trapped s t 0x03#8 1#8

/-- R68, in the model's form (log 4): a data access whose walk or whose own address leaves physical memory stops the machine and writes
nothing else. -/
def Obligations.OutOfRangeDataStops : Prop :=
  ∀ (i : Instr) (s : State) (va : Word), dataAddressOf i s = some va →
    (s.WalkLeavesMemory va ∨ ∃ pde pte pa, s.Maps va pde pte pa ∧ s.MayAccess pde pte ∧
      s.cfg.memSize < pa.toNat + 4) →
    ∃ t, exec i s = .next t ∧ HostStopped s t

/-! ### Control transfer (spec/45_control.md) -/

/-- R200, R201. -/
def Obligations.BeqBneBranchOnZero : Prop :=
  (∀ w : InstrWord,
    (w.extractLsb' 58 6 = 0x0C#6 → decode w = .ok (.beq (w.extractLsb' 16 32))) ∧
    (w.extractLsb' 58 6 = 0x0D#6 → decode w = .ok (.bne (w.extractLsb' 16 32)))) ∧
  ∀ (imm : Word) (s : State),
    (∃ t, exec (.beq imm) s = .next t ∧ t.i0 = (if s.fr[1] = true then s.i0 + imm else s.i0 + 8#32) ∧
      RegsKeptBut s t [] ∧ SpecialsKeptBut s t [.i0] ∧ MemoryKept s t ∧ OutsideKept s t) ∧
    (∃ t, exec (.bne imm) s = .next t ∧ t.i0 = (if s.fr[1] = true then s.i0 + 8#32 else s.i0 + imm) ∧
      RegsKeptBut s t [] ∧ SpecialsKeptBut s t [.i0] ∧ MemoryKept s t ∧ OutsideKept s t)

/-- R202, R203. -/
def Obligations.JmpJalTransfer : Prop :=
  (∀ w : InstrWord,
    (w.extractLsb' 58 6 = 0x0A#6 → decode w = .ok (.jmp (w.extractLsb' 26 32))) ∧
    (w.extractLsb' 58 6 = 0x0B#6 → decode w = .ok (.jal (w.extractLsb' 26 32)))) ∧
  ∀ (address : Word) (s : State),
    (∃ t, exec (.jmp address) s = .next t ∧ t.i0 = address ∧
      RegsKeptBut s t [] ∧ SpecialsKeptBut s t [.i0] ∧ MemoryKept s t ∧ OutsideKept s t) ∧
    (∃ t, exec (.jal address) s = .next t ∧ t.i0 = address ∧ t.reg 31#5 = s.i0 + 8#32 ∧
      RegsKeptBut s t [31#5] ∧ SpecialsKeptBut s t [.i0] ∧ MemoryKept s t ∧ OutsideKept s t)

/-- R204: the completing call. -/
def Obligations.CallPushesReturnAddress : Prop :=
  ∀ (address : Word) (s : State) (pde pte pa : Word),
    s.Maps (s.s0 - 4#32) pde pte pa → s.MayAccess pde pte → pa.toNat + 4 ≤ s.cfg.memSize →
    ∃ t, exec (.call address) s = .next t ∧ StoreEffect s t pa.toNat (s.i0 + 8#32) ∧ t.s0 = s.s0 - 4#32 ∧
      t.i0 = address ∧ RegsKeptBut s t [] ∧ SpecialsKeptBut s t [.i0, .s0] ∧ OutsideKept s t

/-- R205: the completing return. -/
def Obligations.RetPopsProgramCounter : Prop :=
  ∀ (s : State) (pde pte pa : Word),
    s.Maps s.s0 pde pte pa → (s.cfg.checkReads = false ∨ s.MayAccess pde pte) → pa.toNat + 4 ≤ s.cfg.memSize →
    ∃ t, exec .ret s = .next t ∧ t.i0 = wordAt s pa.toNat ∧ t.s0 = s.s0 + 4#32 ∧
      RegsKeptBut s t [] ∧ SpecialsKeptBut s t [.i0, .s0] ∧ MemoryKept s t ∧ OutsideKept s t

/-- R206, R207. -/
def Obligations.NopHltAdvance : Prop :=
  (∀ w : InstrWord,
    (w.extractLsb' 58 6 = 0x15#6 → decode w = .ok .nop) ∧ (w.extractLsb' 58 6 = 0x16#6 → decode w = .ok .hlt)) ∧
  ∀ s : State,
    (∃ t, exec .nop s = .next t ∧ t.i0 = s.i0 + 8#32 ∧
      RegsKeptBut s t [] ∧ SpecialsKeptBut s t [.i0] ∧ MemoryKept s t ∧ OutsideKept s t) ∧
    (∃ t, exec .hlt s = .next t ∧ t.i0 = s.i0 + 8#32 ∧ t.halted = true ∧ t.hostError = s.hostError ∧
      RegsKeptBut s t [] ∧ SpecialsKeptBut s t [.i0] ∧ MemoryKept s t ∧
      t.cfg = s.cfg ∧ t.ioAnswers = s.ioAnswers ∧ t.ioLog = s.ioLog ∧
      (s.hostError = false → t.stepAnswer = .halted ∧ ∀ u, step t ≠ .next u))

/-! ### System instructions (spec/46_system.md) -/

/-- R220, R250: `SWI` completes by its trap entry; when its vector is outside memory the machine stops with `host_error`
set and nothing else written (R253, R68). That the stop is answered as a next state is the model's choice, not the
spec's (DESIGN CHOICE, log 4). -/
def Obligations.SwiEntersTrap : Prop :=
  (∀ w : InstrWord, w.extractLsb' 58 6 = 0x20#6 → decode w = .ok (.swi (w.extractLsb' 16 32))) ∧
  (∀ (imm : Word) (s : State), s.vectorInMemory (imm.extractLsb' 0 8) →
    ∃ t, exec (.swi imm) s = .next t ∧ TrapTaken s t (imm.extractLsb' 0 8) 0#8) ∧
  (∀ (imm : Word) (s : State), ¬ s.vectorInMemory (imm.extractLsb' 0 8) →
    ∃ t, exec (.swi imm) s = .next t ∧ HostStopped s t)

/-- R222. -/
def Obligations.IretRestoresContext : Prop :=
  (∀ w : InstrWord, w.extractLsb' 58 6 = 0x14#6 → decode w = .ok .iret) ∧
  ∀ s : State, ∃ t, exec .iret s = .next t ∧ t.i0 = s.ie1 ∧ t.s0 = s.ie2 ∧ t.fr = s.ie3 &&& 0x47#8 ∧ t.msr = s.ie4 ∧
    RegsKeptBut s t [] ∧ SpecialsKeptBut s t [.i0, .s0, .fr, .msr] ∧ MemoryKept s t ∧ OutsideKept s t

/-- R226: the numbers 0 to 13. -/
def Obligations.MfsReadsSpecial : Prop :=
  (∀ w : InstrWord, w.extractLsb' 58 6 = 0x23#6 →
    decode w = .ok (.mfs (w.extractLsb' 53 5) (w.extractLsb' 48 5))) ∧
  ∀ (rd spec : RegNum) (s : State) (v : Word), (specialsInOrder s)[spec.toNat]? = some v →
    ∃ t, exec (.mfs rd spec) s = .next t ∧ MoveEffect s t rd v

/-- R228: the numbers 0 to 13; the list of all 14 special registers after the instruction. -/
def Obligations.MtsWritesSpecial : Prop :=
  (∀ w : InstrWord, w.extractLsb' 58 6 = 0x24#6 →
    decode w = .ok (.mts (w.extractLsb' 53 5) (w.extractLsb' 48 5))) ∧
  ∀ (spec rs : RegNum) (s : State) (old : Word), (specialsInOrder s)[spec.toNat]? = some old →
    ∃ t, exec (.mts spec rs) s = .next t ∧
      specialsInOrder t =
        ((specialsInOrder s).set spec.toNat (specialStored spec.toNat old (s.reg rs))).modify 0 (· + 8#32) ∧
      RegsKeptBut s t [] ∧ MemoryKept s t ∧ OutsideKept s t

/-- R226, R228: the numbers 14 to 31. -/
def Obligations.ReservedSpecialTraps : Prop :=
  ∀ (spec k : RegNum) (s : State), 14 ≤ spec.toNat →
    (∃ t, exec (.mfs k spec) s = .next t ∧ Trapped s t 0x03#8 6#8) ∧
    (∃ t, exec (.mts spec k) s = .next t ∧ Trapped s t 0x03#8 6#8)

/-- R230, R90: the access reaches a mapped port and is recorded, and is dropped at an unmapped one. -/
def Obligations.OutWritesPort : Prop :=
  (∀ w : InstrWord, w.extractLsb' 58 6 = 0x25#6 →
    decode w = .ok (.out (w.extractLsb' 53 5) (w.extractLsb' 48 5))) ∧
  ∀ (rd rs1 : RegNum) (s : State), ∃ t, exec (.out rd rs1) s = .next t ∧
    t.ioLog = (if (s.reg rd).extractLsb' 0 16 ∈ s.cfg.ioMapped
      then s.ioLog ++ [.write ((s.reg rd).extractLsb' 0 16) (s.reg rs1)] else s.ioLog) ∧
    t.i0 = s.i0 + 8#32 ∧ RegsKeptBut s t [] ∧ SpecialsKeptBut s t [.i0] ∧ MemoryKept s t ∧
    t.halted = s.halted ∧ t.hostError = s.hostError ∧ t.cfg = s.cfg ∧ t.ioAnswers = s.ioAnswers

/-- R231, R90: an unmapped port reads 0 and leaves no event; a mapped one answers some value, the environment's next
answer where it has one ready, and the read is recorded with that value (a free value: log 3). -/
def Obligations.InReadsPort : Prop :=
  (∀ w : InstrWord, w.extractLsb' 58 6 = 0x26#6 →
    decode w = .ok (.inp (w.extractLsb' 53 5) (w.extractLsb' 48 5))) ∧
  ∀ (rd rs1 : RegNum) (s : State), ∃ t, exec (.inp rd rs1) s = .next t ∧
    ((s.reg rd).extractLsb' 0 16 ∉ s.cfg.ioMapped →
      t.reg rs1 = 0#32 ∧ t.ioLog = s.ioLog ∧ t.ioAnswers = s.ioAnswers) ∧
    ((s.reg rd).extractLsb' 0 16 ∈ s.cfg.ioMapped →
      t.ioLog = s.ioLog ++ [.read ((s.reg rd).extractLsb' 0 16) (t.reg rs1)] ∧
      t.ioAnswers = s.ioAnswers.tail ∧ ∀ a ∈ s.ioAnswers.head?, t.reg rs1 = a) ∧
    t.i0 = s.i0 + 8#32 ∧ RegsKeptBut s t [rs1] ∧ SpecialsKeptBut s t [.i0] ∧ MemoryKept s t ∧
    t.halted = s.halted ∧ t.hostError = s.hostError ∧ t.cfg = s.cfg

/-! ### Laws across instructions -/

/-- R163: after every R-type instruction, Z and S are those of the destination register, but for a division by zero, which
traps. -/
def Obligations.AluFlagsMatchResult : Prop :=
  ∀ (i : Instr) (s t : State) (rd : RegNum), aluDest i = some rd → exec i s = .next t →
    (t.fr[1] = decide (t.reg rd = 0#32) ∧ t.fr[2] = (t.reg rd)[31]) ∨
    ∃ rs1 rs2, (i = .div rd rs1 rs2 ∨ i = .mod rd rs1 rs2) ∧ s.reg rs2 = 0#32 ∧ Trapped s t 0x00#8 0#8

/-- R151, R152, R181: V after ADD, SUB and CMP is 1 exactly when the exact signed result does not fit 32 bits. -/
def Obligations.OverflowFlagMeansSignedOverflow : Prop :=
  ∀ (rd rs1 rs2 : RegNum) (s t : State),
    (exec (.add rd rs1 rs2) s = .next t → (t.fr[6] = true ↔
      (s.reg rs1).toInt + (s.reg rs2).toInt < -2 ^ 31 ∨ 2 ^ 31 ≤ (s.reg rs1).toInt + (s.reg rs2).toInt)) ∧
    (exec (.sub rd rs1 rs2) s = .next t → (t.fr[6] = true ↔
      (s.reg rs1).toInt - (s.reg rs2).toInt < -2 ^ 31 ∨ 2 ^ 31 ≤ (s.reg rs1).toInt - (s.reg rs2).toInt)) ∧
    (exec (.cmp rs2 rs1) s = .next t → (t.fr[6] = true ↔
      (s.reg rs1).toInt - (s.reg rs2).toInt < -2 ^ 31 ∨ 2 ^ 31 ≤ (s.reg rs1).toInt - (s.reg rs2).toInt))

/-- R158: dividend = divisor * quotient + remainder, and the remainder is below the divisor (unsigned division). -/
def Obligations.DivModReconstructDividend : Prop :=
  ∀ (q r rs1 rs2 : RegNum) (s t u : State), s.cfg.divSigned = false → s.reg rs2 ≠ 0#32 →
    exec (.div q rs1 rs2) s = .next t → exec (.mod r rs1 rs2) s = .next u →
    (s.reg rs1).toNat = (s.reg rs2).toNat * (t.reg q).toNat + (u.reg r).toNat ∧
    (u.reg r).toNat < (s.reg rs2).toNat

/-- R196: a push and then a pop copy the register and restore `S0`, the page mapping being the same. -/
def Obligations.PushThenPopCopies : Prop :=
  ∀ (x y : RegNum) (s t : State) (pde pte pa : Word), Memory.wf s.mem = true →
    s.Maps (s.s0 - 4#32) pde pte pa → s.MayAccess pde pte → pa.toNat + 4 ≤ s.cfg.memSize →
    exec (.push x) s = .next t → t.Maps (s.s0 - 4#32) pde pte pa →
    ∃ u, exec (.pop y) t = .next u ∧ u.reg y = s.reg x ∧ u.s0 = s.s0 ∧ u.i0 = s.i0 + 16#32

/-- R204, R205: a return right after the call comes back behind it with `S0` restored, the page mapping being the
same. -/
def Obligations.CallThenRetReturns : Prop :=
  ∀ (address : Word) (s t : State) (pde pte pa : Word), Memory.wf s.mem = true →
    s.Maps (s.s0 - 4#32) pde pte pa → s.MayAccess pde pte → pa.toNat + 4 ≤ s.cfg.memSize →
    exec (.call address) s = .next t → t.Maps (s.s0 - 4#32) pde pte pa →
    ∃ u, exec .ret t = .next u ∧ u.i0 = s.i0 + 8#32 ∧ u.s0 = s.s0

/-- R82, R85: what a store wrote is what every later load through the same or another virtual address of the same
bytes gives. -/
def Obligations.LoadSeesStoreThroughAnyAlias : Prop :=
  ∀ (s : State) (va va' pde pte pde' pte' pa v : Word), Memory.wf s.mem = true →
    s.Maps va pde pte pa → s.MayAccess pde pte → pa.toNat + 4 ≤ s.cfg.memSize →
    ∃ m, s.memWrite va v = .done m ∧
      ((s.setMem m).Maps va' pde' pte' pa → s.MayAccess pde' pte' → (s.setMem m).memRead va' = .done v)

/-- R258: `trigger(n, ec)` and then an `IRET`, in any state whose save slots are those the entry wrote, restore `I0`,
`S0`, `FR` and `MSR`; general registers and memory are what the handler left. -/
def Obligations.TrapThenReturnRestores : Prop :=
  ∀ (s u : State) (n ec : Byte), s.reservedFlagsZero → s.vectorInMemory n →
    u.ie1 = (s.trigger n ec).ie1 → u.ie2 = (s.trigger n ec).ie2 → u.ie3 = (s.trigger n ec).ie3 →
    u.ie4 = (s.trigger n ec).ie4 →
    ∃ t, exec .iret u = .next t ∧ t.i0 = s.i0 ∧ t.s0 = s.s0 ∧ t.fr = s.fr ∧ t.msr = s.msr ∧
      RegsKeptBut u t [] ∧ MemoryKept u t

/-! ### The step (spec/40_execution_cycle.md) -/

/-- R140 to R143: a running machine whose word at `I0` decodes runs that instruction; under `FETCH_TRANSLATED` the two
halves are translated reads. -/
def Obligations.StepRunsDecodedInstruction : Prop :=
  ∀ (s : State) (i : Instr), s.running →
    (s.cfg.fetchTranslated = false → s.fetchInMemory → decode s.wordAtPc = .ok i → step s = exec i s) ∧
    (∀ lo hi, s.cfg.fetchTranslated = true → s.memRead s.i0 = .done lo → s.memRead (s.i0 + 4#32) = .done hi →
      decode (hi ++ lo) = .ok i → step s = exec i s)

/-- R111, R142: a word of an unassigned opcode, and no other, is rejected by name, and a step that fetches it delivers
InvalidOpcode(0). -/
def Obligations.IllegalOpcodeTraps : Prop :=
  (∀ w : InstrWord, (w.extractLsb' 58 6 = 0#6 ∨ 0x27 ≤ (w.extractLsb' 58 6).toNat ↔
    decode w = .error (.invalidOpcode (w.extractLsb' 58 6)))) ∧
  ∀ s : State, s.running → s.cfg.fetchTranslated = false → s.fetchInMemory →
    (s.wordAtPc.extractLsb' 58 6 = 0#6 ∨ 0x27 ≤ (s.wordAtPc.extractLsb' 58 6).toNat) →
    ∃ t, step s = .next t ∧ Trapped s t 0x01#8 0#8

/-- R141, R68, in the model's form (log 4): a fetch that leaves physical memory stops the machine and writes nothing else. -/
def Obligations.FetchOutOfRangeStops : Prop :=
  ∀ s : State, s.running → s.cfg.fetchTranslated = false → ¬ s.fetchInMemory →
    ∃ t, step s = .next t ∧ HostStopped s t

/-- R52, R68: with `halted` or `host_error` set no step runs (the model's named faults: log 4), and a step that sets
`host_error` has written nothing else. -/
def Obligations.TerminalStatesAndHostError : Prop :=
  (∀ s t : State, s.halted = true ∨ s.hostError = true → step s ≠ .next t) ∧
  (∀ s t : State, step s = .next t → t.hostError = true → t = { s with hostError := true })

/-- R144, R148: every instruction that is no transfer, no `SWI` and no `MTS` to `I0` advances `I0` by 8, delivers an
interrupt, or stops the machine. -/
def Obligations.AdvanceByEightUnlessTransfer : Prop :=
  ∀ (i : Instr) (s t : State), setsPc i = false → exec i s = .next t →
    t.i0 = s.i0 + 8#32 ∨ (∃ n ec, TrapTaken s t n ec) ∨ HostStopped s t

/-- R65, R76: a step changes memory only through STR, PUSH or CALL, and only the four bytes its data address maps to,
through entries that the mode may access. -/
def Obligations.OnlyStoresWriteMemory : Prop :=
  ∀ s t : State, step s = .next t →
    t.mem = s.mem ∨ ∃ w i va pde pte pa, s.fetch = .done w ∧ decode w = .ok i ∧ storesData i = true ∧
      dataAddressOf i s = some va ∧ s.Maps va pde pte pa ∧ s.MayAccess pde pte ∧
      pa.toNat + 4 ≤ s.cfg.memSize ∧ MemoryKeptBut s t pa.toNat

/-- R33, R34, R40, R41: `S1`, `IVTR`, `TPDR` and `TSP` are written by `MTS` and by nothing else. -/
def Obligations.OnlyMtsWritesTableBases : Prop :=
  ∀ (i : Instr) (s t : State), exec i s = .next t → (∀ spec rs, i ≠ .mts spec rs) →
    t.s1 = s.s1 ∧ t.ivtr = s.ivtr ∧ t.tpdr = s.tpdr ∧ t.tsp = s.tsp

/-- R46, R6: no step changes `PRR` or a parameter of the machine. -/
def Obligations.StepKeepsRevisionAndParameters : Prop :=
  ∀ s t : State, step s = .next t → t.prr = s.prr ∧ t.cfg = s.cfg

/-- R265: user mode becomes kernel mode only by a trap entry, by `IRET` with bit 31 of `IE4` set, or by `MTS MSR` with
bit 31 set. -/
def Obligations.KernelModeEntryPoints : Prop :=
  ∀ s t : State, step s = .next t → s.msr[31] = false → t.msr[31] = true →
    (∃ n ec, TrapTaken s t n ec) ∨
    (∃ w, s.fetch = .done w ∧ decode w = .ok .iret ∧ s.ie4[31] = true) ∨
    (∃ w rs, s.fetch = .done w ∧ decode w = .ok (.mts 13#5 rs) ∧ (s.reg rs)[31] = true)

/-! ### Invariant and reset -/

/-- R28, R60: every step keeps the memory list canonical and inside `[0, MEM_SIZE)` and the reserved bits of `FR` 0. -/
def Obligations.StepKeepsInvariant : Prop :=
  ∀ s t : State, s.Inv → step s = .next t → t.Inv

/-- The invariant holds after reset, under every setting of the parameters. -/
def Obligations.ResetHasInvariant : Prop :=
  State.reset.Inv ∧ ∀ c : Config, (State.resetWith c).Inv

/-- R55, R280: reset, in any state, leaves every register 0 but `MSR = 1`, every byte of memory 0 and both terminal flags
clear; and the machine starts so. -/
def Obligations.ResetLeavesZeroExceptMsr : Prop :=
  ∀ r : State, (r = State.reset ∨ ∃ s : State, r = s.hostReset) →
    (∀ k, r.reg k = 0#32) ∧ specialsInOrder r = [0, 0, 0, 0, 0, 0, 0, 0, 0, 0, 0, 0, 0, 1] ∧
    (∀ a, Memory.read r.mem a = 0#8) ∧ r.halted = false ∧ r.hostError = false

/-- R290, R291: loading an image that fits puts its bytes in memory from the base up and changes nothing else; one that
does not fit is refused. -/
def Obligations.LoadImagePlacesBytes : Prop :=
  ∀ (s : State) (base : Nat) (image : List Byte), Memory.wf s.mem = true →
    (base + image.length ≤ s.cfg.memSize → ∃ t, s.loadImage base image = .ok t ∧ t = s.setMem t.mem ∧
      (∀ k b, image[k]? = some b → Memory.read t.mem (base + k) = b) ∧
      ∀ a, a < base ∨ base + image.length ≤ a → Memory.read t.mem a = Memory.read s.mem a) ∧
    (s.cfg.memSize < base + image.length → s.loadImage base image = .error .imageTooLarge)

/-- A 64-bit word placed where the next step fetches is the instruction that step runs (the model's own placing: log
6). -/
def Obligations.PlacedWordRunsNext : Prop :=
  ∀ (s : State) (w : Nat) (i : Instr), s.running → s.cfg.fetchTranslated = false → s.fetchInMemory →
    Memory.wf s.mem = true → decodeTableWord 64 w = some i →
    step (s.withFetchWord 64 w) = exec i (s.withFetchWord 64 w)

/-! ### Encoding (spec/30_encoding.md) -/

/-- R116, R117: decoding the encoding of an instruction gives it back, every operand at every value. -/
def Obligations.DecodeEncodeRoundTrip : Prop := ∀ i : Instr, decode (encode i) = .ok i

/-- R115 to R117: a record is encoded exactly when it is well formed, decoding gives it back, and encoding a decoded
record gives the word with its reserved bits cleared. -/
def Obligations.RecordRoundTrip : Prop :=
  (∀ r : Record, r.wellFormed = true → ∃ w, encodeRecord r = .ok w ∧ decodeRecord w = .ok r) ∧
  (∀ r : Record, r.wellFormed = false → encodeRecord r = .error (.illFormed r)) ∧
  (∀ (w : InstrWord) (r : Record) (f : Format), Format.ofOpcode (w.extractLsb' 58 6).toNat = some f →
    decodeRecord w = .ok r → encodeRecord r = .ok (w &&& formatBits f))

/-- R106, R118: two words that agree on the bits the instruction uses are the same instruction. -/
def Obligations.IgnoredBitsDoNotMatter : Prop :=
  ∀ (w w' : InstrWord) (i : Instr), decode w = .ok i → w &&& usedBits i = w' &&& usedBits i → decode w' = .ok i

/-- R135 and the words of the instruction rules, written out from the encoding tables: one of each format and family. -/
def Obligations.DecodesHandEncodedWords : Prop :=
  decode 0x04A6380000000000#64 = .ok (.add 5#5 6#5 7#5) ∧ decode 0x1861002000000000#64 = .ok (.lsl 3#5 1#5 1#6) ∧
  decode 0x202D000000400000#64 = .ok (.ldr 1#5 13#5 0x40#32) ∧ decode 0x3C22000000000000#64 = .ok (.cmp 1#5 2#5) ∧
  decode 0x2800008000000000#64 = .ok (.jmp 0x2000#32) ∧ decode 0x8C26000000000000#64 = .ok (.mfs 1#5 6#5) ∧
  decode 0x9C00000000000000#64 = .error (.invalidOpcode 0x27#6)

/-- R125, R127: a line the assembler accepts gives a word that decodes to the instruction it read, and names only
special registers that exist. -/
def Obligations.AssembledLineDecodes : Prop :=
  ∀ (sentinel : RegNum) (line : List Char) (w : InstrWord), assembleLine sentinel line = .ok w →
    ∃ i, parseLine sentinel line = .ok i ∧ decode w = .ok i ∧
      ∀ k n : RegNum, (i = .mfs k n ∨ i = .mts n k) → n.toNat ≤ 13
end

