-- ==== Sys2Proof/Laws/Decode.lean ====
section
/-! SUPPORT. The laws of decoder and encoder: each field of a packed record, decode by the opcode map of the word's format,
bytes and words. -/

namespace Sys2Proof

/-! ### Fields of a packed record -/

section packR
variable (op : BitVec 6) (rd rs1 rs2 : RegNum) (shamt : BitVec 6) (func : BitVec 8)

/-- The word of an R record, fields as bit vectors. -/
theorem pack_r : Record.pack (.r op.toNat rd.toNat rs1.toNat rs2.toNat shamt.toNat func.toNat)
    = op ++ rd ++ rs1 ++ rs2 ++ shamt ++ func ++ 0#29 := by
  simp [Record.pack]

theorem opcodeOf_r : opcodeOf (op ++ rd ++ rs1 ++ rs2 ++ shamt ++ func ++ 0#29) = op := by
  ext i hi
  simp only [opcodeOf, BitVec.getElem_extractLsb', BitVec.getLsbD_append]
  rw [if_neg (by omega), if_neg (by omega), if_neg (by omega), if_neg (by omega), if_neg (by omega),
    if_neg (by omega), ← BitVec.getLsbD_eq_getElem]
  congr 1; omega

theorem rdOf_r : rdOf (op ++ rd ++ rs1 ++ rs2 ++ shamt ++ func ++ 0#29) = rd := by
  ext i hi
  simp only [rdOf, BitVec.getElem_extractLsb', BitVec.getLsbD_append]
  rw [if_neg (by omega), if_neg (by omega), if_neg (by omega), if_neg (by omega), if_neg (by omega),
    if_pos (by omega), ← BitVec.getLsbD_eq_getElem]
  congr 1; omega

theorem rs1Of_r : rs1Of (op ++ rd ++ rs1 ++ rs2 ++ shamt ++ func ++ 0#29) = rs1 := by
  ext i hi
  simp only [rs1Of, BitVec.getElem_extractLsb', BitVec.getLsbD_append]
  rw [if_neg (by omega), if_neg (by omega), if_neg (by omega), if_neg (by omega), if_pos (by omega),
    ← BitVec.getLsbD_eq_getElem]
  congr 1; omega

theorem rs2Of_r : rs2Of (op ++ rd ++ rs1 ++ rs2 ++ shamt ++ func ++ 0#29) = rs2 := by
  ext i hi
  simp only [rs2Of, BitVec.getElem_extractLsb', BitVec.getLsbD_append]
  rw [if_neg (by omega), if_neg (by omega), if_neg (by omega), if_pos (by omega), ← BitVec.getLsbD_eq_getElem]
  congr 1; omega

theorem shamtOf_r : shamtOf (op ++ rd ++ rs1 ++ rs2 ++ shamt ++ func ++ 0#29) = shamt := by
  ext i hi
  simp only [shamtOf, BitVec.getElem_extractLsb', BitVec.getLsbD_append]
  rw [if_neg (by omega), if_neg (by omega), if_pos (by omega), ← BitVec.getLsbD_eq_getElem]
  congr 1; omega

theorem funcOf_r : funcOf (op ++ rd ++ rs1 ++ rs2 ++ shamt ++ func ++ 0#29) = func := by
  ext i hi
  simp only [funcOf, BitVec.getElem_extractLsb', BitVec.getLsbD_append]
  rw [if_neg (by omega), if_pos (by omega), ← BitVec.getLsbD_eq_getElem]
  congr 1; omega

end packR

section packI
variable (op : BitVec 6) (rd rs1 : RegNum) (imm : Word)

/-- The word of an I record, fields as bit vectors. -/
theorem pack_i : Record.pack (.i op.toNat rd.toNat rs1.toNat imm.toNat) = op ++ rd ++ rs1 ++ imm ++ 0#16 := by
  simp [Record.pack]

theorem opcodeOf_i : opcodeOf (op ++ rd ++ rs1 ++ imm ++ 0#16) = op := by
  ext i hi
  simp only [opcodeOf, BitVec.getElem_extractLsb', BitVec.getLsbD_append]
  rw [if_neg (by omega), if_neg (by omega), if_neg (by omega), if_neg (by omega), ← BitVec.getLsbD_eq_getElem]
  congr 1; omega

theorem rdOf_i : rdOf (op ++ rd ++ rs1 ++ imm ++ 0#16) = rd := by
  ext i hi
  simp only [rdOf, BitVec.getElem_extractLsb', BitVec.getLsbD_append]
  rw [if_neg (by omega), if_neg (by omega), if_neg (by omega), if_pos (by omega), ← BitVec.getLsbD_eq_getElem]
  congr 1; omega

theorem rs1Of_i : rs1Of (op ++ rd ++ rs1 ++ imm ++ 0#16) = rs1 := by
  ext i hi
  simp only [rs1Of, BitVec.getElem_extractLsb', BitVec.getLsbD_append]
  rw [if_neg (by omega), if_neg (by omega), if_pos (by omega), ← BitVec.getLsbD_eq_getElem]
  congr 1; omega

theorem immOf_i : immOf (op ++ rd ++ rs1 ++ imm ++ 0#16) = imm := by
  ext i hi
  simp only [immOf, BitVec.getElem_extractLsb', BitVec.getLsbD_append]
  rw [if_neg (by omega), if_pos (by omega), ← BitVec.getLsbD_eq_getElem]
  congr 1; omega

end packI

section packJ
variable (op : BitVec 6) (address : Word)

/-- The word of a J record, fields as bit vectors. -/
theorem pack_j : Record.pack (.j op.toNat address.toNat) = op ++ address ++ 0#26 := by
  simp [Record.pack]

theorem opcodeOf_j : opcodeOf (op ++ address ++ 0#26) = op := by
  ext i hi
  simp only [opcodeOf, BitVec.getElem_extractLsb', BitVec.getLsbD_append]
  rw [if_neg (by omega), if_neg (by omega), ← BitVec.getLsbD_eq_getElem]
  congr 1; omega

theorem addressOf_j : addressOf (op ++ address ++ 0#26) = address := by
  ext i hi
  simp only [addressOf, BitVec.getElem_extractLsb', BitVec.getLsbD_append]
  rw [if_neg (by omega), if_pos (by omega), ← BitVec.getLsbD_eq_getElem]
  congr 1; omega

end packJ

/-! ### Decoding by the format of the opcode -/

/-- An R-class word decodes by the R-class map. -/
theorem decode_r {w : InstrWord} (h : Format.ofOpcode (opcodeOf w).toNat = some .r) :
    decode w = instrR (opcodeOf w) (rdOf w) (rs1Of w) (rs2Of w) (shamtOf w) := by
  simp [decode, decodeRecord, h, Record.toInstr]

/-- An I-class word decodes by the I-class map. -/
theorem decode_i {w : InstrWord} (h : Format.ofOpcode (opcodeOf w).toNat = some .i) :
    decode w = instrI (opcodeOf w) (rdOf w) (rs1Of w) (immOf w) := by
  simp [decode, decodeRecord, h, Record.toInstr]

/-- A J-class word decodes by the J-class map. -/
theorem decode_j {w : InstrWord} (h : Format.ofOpcode (opcodeOf w).toNat = some .j) :
    decode w = instrJ (opcodeOf w) (addressOf w) := by
  simp [decode, decodeRecord, h, Record.toInstr]

/-- A word of no class is rejected by name. -/
theorem decode_illegal {w : InstrWord} (h : Format.ofOpcode (opcodeOf w).toNat = none) :
    decode w = .error (.invalidOpcode (opcodeOf w)) := by
  simp [decode, decodeRecord, h]

/-! ### Bytes -/

theorem length_bytesOf (n v : Nat) : (bytesOf n v).length = n := by
  induction n generalizing v with
  | zero => rfl
  | succ n ih => simp [bytesOf, ih]

/-- The low `n` bytes of a number have the value of the number modulo 2^(8n). -/
theorem bytesValue_bytesOf (n v : Nat) : bytesValue (bytesOf n v) = v % 2 ^ (8 * n) := by
  induction n generalizing v with
  | zero => simp [bytesOf, bytesValue, Nat.mod_one]
  | succ n ih =>
    simp only [bytesOf, bytesValue, ih, BitVec.toNat_ofNat]
    rw [show 8 * (n + 1) = 8 + 8 * n by ring, pow_add, Nat.mod_mul]
    norm_num

/-- Decoding the bytes of a word is decoding the word. -/
theorem decodeBytes_bytesOf (w : InstrWord) :
    decodeBytes (bytesOf 8 w.toNat) = (decode w).map fun i => (i, []) := by
  have hl : (bytesOf 8 w.toNat).length = 8 := length_bytesOf 8 _
  have ht : (bytesOf 8 w.toNat).take 8 = bytesOf 8 w.toNat := List.take_of_length_le (by omega)
  have hd : (bytesOf 8 w.toNat).drop 8 = [] := List.drop_of_length_le (by omega)
  have hv : BitVec.ofNat 64 (bytesValue (bytesOf 8 w.toNat)) = w := by
    rw [bytesValue_bytesOf]
    apply BitVec.eq_of_toNat_eq
    have := w.isLt
    simp only [BitVec.toNat_ofNat]
    omega
  rw [decodeBytes, if_neg (by omega), ht, hd, hv]
  cases decode w <;> rfl

end Sys2Proof
end

