-- ==== Sys2Proof/Laws/Memory.lean ====
section
/-! SUPPORT. The laws of the memory list: what a byte reads as after a write, that every write keeps the canonical form
and the bound, that equal reads mean equal canonical memories, and the same for 32-bit words. -/

namespace Sys2Proof.Machine

/-- The canonical form as a proposition. -/
theorem Memory.wf_iff (m : Memory) :
    Memory.wf m = true ↔ m.Pairwise (fun x y => x.1 < y.1) ∧ ∀ c ∈ m, c.2 ≠ 0#8 := by
  simp [Memory.wf]

/-- The bound as a proposition. -/
theorem Memory.within_iff (m : Memory) (size : Nat) : Memory.within m size = true ↔ ∀ c ∈ m, c.1 < size := by
  simp [Memory.within]

theorem Memory.read_cons (k : Nat) (b : Byte) (m : Memory) (a : Nat) :
    Memory.read ((k, b) :: m) a = if k = a then b else Memory.read m a := rfl

/-- An address that is not listed reads 0. -/
theorem Memory.read_eq_zero {m : Memory} {a : Nat} (h : ∀ c ∈ m, c.1 ≠ a) : Memory.read m a = 0#8 := by
  induction m with
  | nil => rfl
  | cons c m ih =>
    obtain ⟨k, b⟩ := c
    have hk : k ≠ a := h (k, b) (by simp)
    rw [Memory.read_cons, if_neg hk]
    exact ih fun c hc => h c (by simp [hc])

/-- The tail of a canonical memory is canonical, and lies above its head. -/
theorem Memory.wf_cons {k : Nat} {b : Byte} {m : Memory} (h : Memory.wf ((k, b) :: m)) :
    (∀ c ∈ m, k < c.1) ∧ b ≠ 0#8 ∧ Memory.wf m := by
  obtain ⟨hs, hz⟩ := (Memory.wf_iff _).mp h
  rw [List.pairwise_cons] at hs
  exact ⟨fun c hc => hs.1 c hc, hz (k, b) (by simp),
    (Memory.wf_iff _).mpr ⟨hs.2, fun c hc => hz c (by simp [hc])⟩⟩

/-- A write changes no other byte. -/
theorem Memory.read_write_ne (m : Memory) {a x : Nat} (v : Byte) (h : x ≠ a) :
    Memory.read (Memory.write m a v) x = Memory.read m x := by
  have h' : a ≠ x := Ne.symm h
  induction m with
  | nil => by_cases hv : v = 0#8 <;> simp [Memory.write, hv, Memory.read, h']
  | cons c m ih =>
    obtain ⟨k, b⟩ := c
    unfold Memory.write
    split
    · by_cases hv : v = 0#8 <;> simp [hv, Memory.read_cons, h']
    · split
      · rename_i e
        subst e
        by_cases hv : v = 0#8 <;> simp [hv, Memory.read_cons, h']
      · simp only [Memory.read_cons, ih]

/-- A byte written to a canonical memory is read back. -/
theorem Memory.read_write_same {m : Memory} (hm : Memory.wf m) (a : Nat) (v : Byte) :
    Memory.read (Memory.write m a v) a = v := by
  induction m with
  | nil => by_cases hv : v = 0#8 <;> simp [Memory.write, hv, Memory.read]
  | cons c m ih =>
    obtain ⟨k, b⟩ := c
    obtain ⟨hk, -, hw⟩ := Memory.wf_cons hm
    unfold Memory.write
    split
    · rename_i hlt
      by_cases hv : v = 0#8
      · simp only [hv, if_true]
        refine Memory.read_eq_zero fun c hc => ?_
        rcases List.mem_cons.mp hc with rfl | hc
        · simp only; omega
        · have := hk c hc; omega
      · simp [hv, Memory.read_cons]
    · rename_i hge
      split
      · rename_i e
        subst e
        by_cases hv : v = 0#8
        · simp only [hv, if_true]
          exact Memory.read_eq_zero fun c hc => by have := hk c hc; omega
        · simp [hv, Memory.read_cons]
      · rename_i hne
        rw [Memory.read_cons, if_neg (by omega)]
        exact ih hw

theorem Memory.read_write {m : Memory} (hm : Memory.wf m) (a x : Nat) (v : Byte) :
    Memory.read (Memory.write m a v) x = if x = a then v else Memory.read m x := by
  split
  · rename_i e; subst e; exact Memory.read_write_same hm x v
  · rename_i h; exact Memory.read_write_ne m v h

/-- What a write lists: the written cell, or cells that were there. -/
theorem Memory.mem_write {m : Memory} {a : Nat} {v : Byte} {c : Host.Cell} (h : c ∈ Memory.write m a v) :
    c = (a, v) ∧ v ≠ 0#8 ∨ c ∈ m := by
  induction m with
  | nil =>
    by_cases hv : v = 0#8
    · simp [Memory.write, hv] at h
    · simp [Memory.write, hv] at h; exact .inl ⟨h, hv⟩
  | cons d m ih =>
    obtain ⟨k, b⟩ := d
    unfold Memory.write at h
    split at h
    · split at h
      · exact .inr h
      · rename_i hv
        rcases List.mem_cons.mp h with rfl | h
        · exact .inl ⟨rfl, hv⟩
        · exact .inr h
    · split at h
      · split at h
        · exact .inr (by simp [h])
        · rename_i hv
          rcases List.mem_cons.mp h with rfl | h
          · exact .inl ⟨rfl, hv⟩
          · exact .inr (by simp [h])
      · rcases List.mem_cons.mp h with rfl | h
        · exact .inr (by simp)
        · exact (ih h).imp_right fun h => by simp [h]

/-- A write keeps the canonical form. -/
theorem Memory.write_wf {m : Memory} (hm : Memory.wf m) (a : Nat) (v : Byte) : Memory.wf (Memory.write m a v) := by
  refine (Memory.wf_iff _).mpr ⟨?_, fun c hc => ?_⟩
  · induction m with
    | nil => by_cases hv : v = 0#8 <;> simp [Memory.write, hv]
    | cons d m ih =>
      obtain ⟨k, b⟩ := d
      have hs : List.Pairwise (fun x y : Host.Cell => x.1 < y.1) ((k, b) :: m) := ((Memory.wf_iff _).mp hm).1
      have hs' := (List.pairwise_cons.mp hs).2
      obtain ⟨hk, -, hw⟩ := Memory.wf_cons hm
      unfold Memory.write
      split
      · split
        · exact hs
        · refine List.pairwise_cons.mpr ⟨fun c hc => ?_, hs⟩
          rcases List.mem_cons.mp hc with rfl | hc
          · assumption
          · have := hk c hc; simp only; omega
      · split
        · rename_i e
          split
          · exact hs'
          · exact List.pairwise_cons.mpr ⟨fun c hc => by have := hk c hc; simp only; omega, hs'⟩
        · refine List.pairwise_cons.mpr ⟨fun c hc => ?_, ih hw⟩
          rcases Memory.mem_write hc with ⟨rfl, -⟩ | hc
          · simp only; omega
          · exact hk c hc
  · rcases Memory.mem_write hc with ⟨rfl, hv⟩ | hc
    · exact hv
    · exact ((Memory.wf_iff _).mp hm).2 c hc

/-- A write below the bound keeps the bound. -/
theorem Memory.write_within {m : Memory} {size a : Nat} (hm : Memory.within m size) (h : a < size) (v : Byte) :
    Memory.within (Memory.write m a v) size := by
  refine (Memory.within_iff _ _).mpr fun c hc => ?_
  rcases Memory.mem_write hc with ⟨rfl, -⟩ | hc
  · exact h
  · exact (Memory.within_iff _ _).mp hm c hc

/-- Canonical memories that read the same are the same list. -/
theorem Memory.ext {m n : Memory} (hm : Memory.wf m) (hn : Memory.wf n)
    (h : ∀ a, Memory.read m a = Memory.read n a) : m = n := by
  induction m generalizing n with
  | nil =>
    cases n with
    | nil => rfl
    | cons c n =>
      obtain ⟨k, b⟩ := c
      obtain ⟨-, hb, -⟩ := Memory.wf_cons hn
      exact absurd (by simpa [Memory.read] using (h k).symm) hb
  | cons c m ih =>
    obtain ⟨k, b⟩ := c
    obtain ⟨hk, hb, hw⟩ := Memory.wf_cons hm
    cases n with
    | nil => exact absurd (by simpa [Memory.read] using h k) hb
    | cons d n =>
      obtain ⟨j, e⟩ := d
      obtain ⟨hj, he, hw'⟩ := Memory.wf_cons hn
      have hkj : k = j := by
        rcases Nat.lt_trichotomy k j with hlt | heq | hgt
        · have hr := h k
          rw [Memory.read_cons, if_pos rfl, Memory.read_cons, if_neg (by omega),
            Memory.read_eq_zero fun c hc => by have := hj c hc; omega] at hr
          exact absurd hr hb
        · exact heq
        · have hr := h j
          rw [Memory.read_cons, if_neg (by omega), Memory.read_cons, if_pos rfl,
            Memory.read_eq_zero fun c hc => by have := hk c hc; omega] at hr
          exact absurd hr.symm he
      subst hkj
      have hbe : b = e := by simpa [Memory.read] using h k
      subst hbe
      refine congrArg _ (ih hw hw' fun a => ?_)
      by_cases ha : k = a
      · subst ha
        rw [Memory.read_eq_zero fun c hc => by have := hk c hc; omega,
          Memory.read_eq_zero fun c hc => by have := hj c hc; omega]
      · simpa [Memory.read_cons, ha] using h a

/-! ### Words -/

theorem Memory.writeWord_wf {m : Memory} (hm : Memory.wf m) (a : Nat) (v : Word) :
    Memory.wf (Memory.writeWord m a v) :=
  Memory.write_wf (Memory.write_wf (Memory.write_wf (Memory.write_wf hm _ _) _ _) _ _) _ _

theorem Memory.writeWord_within {m : Memory} {size a : Nat} (hm : Memory.within m size) (h : a + 4 ≤ size)
    (v : Word) : Memory.within (Memory.writeWord m a v) size :=
  Memory.write_within (Memory.write_within (Memory.write_within (Memory.write_within hm (by omega) _) (by omega) _)
    (by omega) _) (by omega) _

/-- A stored word changes no byte outside its four. -/
theorem Memory.read_writeWord_ne (m : Memory) {a x : Nat} (v : Word) (h : x < a ∨ a + 4 ≤ x) :
    Memory.read (Memory.writeWord m a v) x = Memory.read m x := by
  unfold Memory.writeWord
  rw [Memory.read_write_ne _ _ (by omega), Memory.read_write_ne _ _ (by omega),
    Memory.read_write_ne _ _ (by omega), Memory.read_write_ne _ _ (by omega)]

/-- The four bytes of a stored word, least significant at the lowest address (R61). -/
theorem Memory.read_writeWord_bytes {m : Memory} (hm : Memory.wf m) (a : Nat) (v : Word) :
    Memory.read (Memory.writeWord m a v) a = v.extractLsb' 0 8 ∧
    Memory.read (Memory.writeWord m a v) (a + 1) = v.extractLsb' 8 8 ∧
    Memory.read (Memory.writeWord m a v) (a + 2) = v.extractLsb' 16 8 ∧
    Memory.read (Memory.writeWord m a v) (a + 3) = v.extractLsb' 24 8 := by
  have h1 := Memory.write_wf hm a (v.extractLsb' 0 8)
  have h2 := Memory.write_wf h1 (a + 1) (v.extractLsb' 8 8)
  have h3 := Memory.write_wf h2 (a + 2) (v.extractLsb' 16 8)
  refine ⟨?_, ?_, ?_, ?_⟩ <;> simp [Memory.writeWord, Memory.read_write, hm, h1, h2, h3]

/-- A word is the concatenation of its four bytes. -/
theorem Word.of_bytes (v : Word) :
    v.extractLsb' 24 8 ++ v.extractLsb' 16 8 ++ v.extractLsb' 8 8 ++ v.extractLsb' 0 8 = v := by
  ext i hi
  simp only [BitVec.getElem_append, BitVec.getElem_extractLsb']
  repeat' split
  all_goals
    rw [← BitVec.getLsbD_eq_getElem]
    congr 1
    omega

/-- A word stored is read back. -/
theorem Memory.readWord_writeWord_same {m : Memory} (hm : Memory.wf m) (a : Nat) (v : Word) :
    Memory.readWord (Memory.writeWord m a v) a = v := by
  obtain ⟨h0, h1, h2, h3⟩ := Memory.read_writeWord_bytes hm a v
  rw [Memory.readWord, h0, h1, h2, h3, Word.of_bytes]

/-- A word elsewhere reads as before. -/
theorem Memory.readWord_writeWord_ne (m : Memory) {a x : Nat} (v : Word) (h : x + 4 ≤ a ∨ a + 4 ≤ x) :
    Memory.readWord (Memory.writeWord m a v) x = Memory.readWord m x := by
  unfold Memory.readWord
  rw [Memory.read_writeWord_ne _ _ (by omega), Memory.read_writeWord_ne _ _ (by omega),
    Memory.read_writeWord_ne _ _ (by omega), Memory.read_writeWord_ne _ _ (by omega)]

theorem Memory.writeBytes_wf {m : Memory} (hm : Memory.wf m) (a : Nat) (bs : List Byte) :
    Memory.wf (Memory.writeBytes m a bs) := by
  induction bs generalizing m a with
  | nil => exact hm
  | cons b bs ih => exact ih (Memory.write_wf hm a b) (a + 1)

theorem Memory.writeBytes_within {m : Memory} {size a : Nat} (hm : Memory.within m size) (bs : List Byte)
    (h : a + bs.length ≤ size) : Memory.within (Memory.writeBytes m a bs) size := by
  induction bs generalizing m a with
  | nil => exact hm
  | cons b bs ih =>
    simp only [List.length_cons] at h
    exact ih (Memory.write_within hm (by omega) b) (by omega)

end Sys2Proof.Machine
end

