-- ==== Sys2Proof/Laws/State.lean ====
section
/-! SUPPORT. One lemma per field per update of the state, true by unfolding, so that no later proof unfolds a record
update. -/

namespace Sys2Proof.Machine

section setReg
variable (s : State) (k : RegNum) (v : Word)
@[simp] theorem State.setReg_regs : (s.setReg k v).regs = s.regs.set k.toNat v k.isLt := rfl
@[simp] theorem State.setReg_i0 : (s.setReg k v).i0 = s.i0 := rfl
@[simp] theorem State.setReg_s0 : (s.setReg k v).s0 = s.s0 := rfl
@[simp] theorem State.setReg_s1 : (s.setReg k v).s1 = s.s1 := rfl
@[simp] theorem State.setReg_fr : (s.setReg k v).fr = s.fr := rfl
@[simp] theorem State.setReg_ivtr : (s.setReg k v).ivtr = s.ivtr := rfl
@[simp] theorem State.setReg_ie0 : (s.setReg k v).ie0 = s.ie0 := rfl
@[simp] theorem State.setReg_ie1 : (s.setReg k v).ie1 = s.ie1 := rfl
@[simp] theorem State.setReg_ie2 : (s.setReg k v).ie2 = s.ie2 := rfl
@[simp] theorem State.setReg_ie3 : (s.setReg k v).ie3 = s.ie3 := rfl
@[simp] theorem State.setReg_ie4 : (s.setReg k v).ie4 = s.ie4 := rfl
@[simp] theorem State.setReg_tpdr : (s.setReg k v).tpdr = s.tpdr := rfl
@[simp] theorem State.setReg_tsp : (s.setReg k v).tsp = s.tsp := rfl
@[simp] theorem State.setReg_prr : (s.setReg k v).prr = s.prr := rfl
@[simp] theorem State.setReg_msr : (s.setReg k v).msr = s.msr := rfl
@[simp] theorem State.setReg_mem : (s.setReg k v).mem = s.mem := rfl
@[simp] theorem State.setReg_halted : (s.setReg k v).halted = s.halted := rfl
@[simp] theorem State.setReg_hostError : (s.setReg k v).hostError = s.hostError := rfl
@[simp] theorem State.setReg_cfg : (s.setReg k v).cfg = s.cfg := rfl
@[simp] theorem State.setReg_ioAnswers : (s.setReg k v).ioAnswers = s.ioAnswers := rfl
@[simp] theorem State.setReg_ioLog : (s.setReg k v).ioLog = s.ioLog := rfl
end setReg

section setPc
variable (s : State) (v : Word)
@[simp] theorem State.setPc_regs : (s.setPc v).regs = s.regs := rfl
@[simp] theorem State.setPc_i0 : (s.setPc v).i0 = v := rfl
@[simp] theorem State.setPc_s0 : (s.setPc v).s0 = s.s0 := rfl
@[simp] theorem State.setPc_s1 : (s.setPc v).s1 = s.s1 := rfl
@[simp] theorem State.setPc_fr : (s.setPc v).fr = s.fr := rfl
@[simp] theorem State.setPc_ivtr : (s.setPc v).ivtr = s.ivtr := rfl
@[simp] theorem State.setPc_ie0 : (s.setPc v).ie0 = s.ie0 := rfl
@[simp] theorem State.setPc_ie1 : (s.setPc v).ie1 = s.ie1 := rfl
@[simp] theorem State.setPc_ie2 : (s.setPc v).ie2 = s.ie2 := rfl
@[simp] theorem State.setPc_ie3 : (s.setPc v).ie3 = s.ie3 := rfl
@[simp] theorem State.setPc_ie4 : (s.setPc v).ie4 = s.ie4 := rfl
@[simp] theorem State.setPc_tpdr : (s.setPc v).tpdr = s.tpdr := rfl
@[simp] theorem State.setPc_tsp : (s.setPc v).tsp = s.tsp := rfl
@[simp] theorem State.setPc_prr : (s.setPc v).prr = s.prr := rfl
@[simp] theorem State.setPc_msr : (s.setPc v).msr = s.msr := rfl
@[simp] theorem State.setPc_mem : (s.setPc v).mem = s.mem := rfl
@[simp] theorem State.setPc_halted : (s.setPc v).halted = s.halted := rfl
@[simp] theorem State.setPc_hostError : (s.setPc v).hostError = s.hostError := rfl
@[simp] theorem State.setPc_cfg : (s.setPc v).cfg = s.cfg := rfl
@[simp] theorem State.setPc_ioAnswers : (s.setPc v).ioAnswers = s.ioAnswers := rfl
@[simp] theorem State.setPc_ioLog : (s.setPc v).ioLog = s.ioLog := rfl
end setPc

section advance
variable (s : State)
@[simp] theorem State.advance_regs : s.advance.regs = s.regs := rfl
@[simp] theorem State.advance_i0 : s.advance.i0 = s.i0 + 8#32 := rfl
@[simp] theorem State.advance_s0 : s.advance.s0 = s.s0 := rfl
@[simp] theorem State.advance_s1 : s.advance.s1 = s.s1 := rfl
@[simp] theorem State.advance_fr : s.advance.fr = s.fr := rfl
@[simp] theorem State.advance_ivtr : s.advance.ivtr = s.ivtr := rfl
@[simp] theorem State.advance_ie0 : s.advance.ie0 = s.ie0 := rfl
@[simp] theorem State.advance_ie1 : s.advance.ie1 = s.ie1 := rfl
@[simp] theorem State.advance_ie2 : s.advance.ie2 = s.ie2 := rfl
@[simp] theorem State.advance_ie3 : s.advance.ie3 = s.ie3 := rfl
@[simp] theorem State.advance_ie4 : s.advance.ie4 = s.ie4 := rfl
@[simp] theorem State.advance_tpdr : s.advance.tpdr = s.tpdr := rfl
@[simp] theorem State.advance_tsp : s.advance.tsp = s.tsp := rfl
@[simp] theorem State.advance_prr : s.advance.prr = s.prr := rfl
@[simp] theorem State.advance_msr : s.advance.msr = s.msr := rfl
@[simp] theorem State.advance_mem : s.advance.mem = s.mem := rfl
@[simp] theorem State.advance_halted : s.advance.halted = s.halted := rfl
@[simp] theorem State.advance_hostError : s.advance.hostError = s.hostError := rfl
@[simp] theorem State.advance_cfg : s.advance.cfg = s.cfg := rfl
@[simp] theorem State.advance_ioAnswers : s.advance.ioAnswers = s.ioAnswers := rfl
@[simp] theorem State.advance_ioLog : s.advance.ioLog = s.ioLog := rfl
end advance

section setS0
variable (s : State) (v : Word)
@[simp] theorem State.setS0_regs : (s.setS0 v).regs = s.regs := rfl
@[simp] theorem State.setS0_i0 : (s.setS0 v).i0 = s.i0 := rfl
@[simp] theorem State.setS0_s0 : (s.setS0 v).s0 = v := rfl
@[simp] theorem State.setS0_s1 : (s.setS0 v).s1 = s.s1 := rfl
@[simp] theorem State.setS0_fr : (s.setS0 v).fr = s.fr := rfl
@[simp] theorem State.setS0_ivtr : (s.setS0 v).ivtr = s.ivtr := rfl
@[simp] theorem State.setS0_ie0 : (s.setS0 v).ie0 = s.ie0 := rfl
@[simp] theorem State.setS0_ie1 : (s.setS0 v).ie1 = s.ie1 := rfl
@[simp] theorem State.setS0_ie2 : (s.setS0 v).ie2 = s.ie2 := rfl
@[simp] theorem State.setS0_ie3 : (s.setS0 v).ie3 = s.ie3 := rfl
@[simp] theorem State.setS0_ie4 : (s.setS0 v).ie4 = s.ie4 := rfl
@[simp] theorem State.setS0_tpdr : (s.setS0 v).tpdr = s.tpdr := rfl
@[simp] theorem State.setS0_tsp : (s.setS0 v).tsp = s.tsp := rfl
@[simp] theorem State.setS0_prr : (s.setS0 v).prr = s.prr := rfl
@[simp] theorem State.setS0_msr : (s.setS0 v).msr = s.msr := rfl
@[simp] theorem State.setS0_mem : (s.setS0 v).mem = s.mem := rfl
@[simp] theorem State.setS0_halted : (s.setS0 v).halted = s.halted := rfl
@[simp] theorem State.setS0_hostError : (s.setS0 v).hostError = s.hostError := rfl
@[simp] theorem State.setS0_cfg : (s.setS0 v).cfg = s.cfg := rfl
@[simp] theorem State.setS0_ioAnswers : (s.setS0 v).ioAnswers = s.ioAnswers := rfl
@[simp] theorem State.setS0_ioLog : (s.setS0 v).ioLog = s.ioLog := rfl
end setS0

section setMem
variable (s : State) (m : Memory)
@[simp] theorem State.setMem_regs : (s.setMem m).regs = s.regs := rfl
@[simp] theorem State.setMem_i0 : (s.setMem m).i0 = s.i0 := rfl
@[simp] theorem State.setMem_s0 : (s.setMem m).s0 = s.s0 := rfl
@[simp] theorem State.setMem_s1 : (s.setMem m).s1 = s.s1 := rfl
@[simp] theorem State.setMem_fr : (s.setMem m).fr = s.fr := rfl
@[simp] theorem State.setMem_ivtr : (s.setMem m).ivtr = s.ivtr := rfl
@[simp] theorem State.setMem_ie0 : (s.setMem m).ie0 = s.ie0 := rfl
@[simp] theorem State.setMem_ie1 : (s.setMem m).ie1 = s.ie1 := rfl
@[simp] theorem State.setMem_ie2 : (s.setMem m).ie2 = s.ie2 := rfl
@[simp] theorem State.setMem_ie3 : (s.setMem m).ie3 = s.ie3 := rfl
@[simp] theorem State.setMem_ie4 : (s.setMem m).ie4 = s.ie4 := rfl
@[simp] theorem State.setMem_tpdr : (s.setMem m).tpdr = s.tpdr := rfl
@[simp] theorem State.setMem_tsp : (s.setMem m).tsp = s.tsp := rfl
@[simp] theorem State.setMem_prr : (s.setMem m).prr = s.prr := rfl
@[simp] theorem State.setMem_msr : (s.setMem m).msr = s.msr := rfl
@[simp] theorem State.setMem_mem : (s.setMem m).mem = m := rfl
@[simp] theorem State.setMem_halted : (s.setMem m).halted = s.halted := rfl
@[simp] theorem State.setMem_hostError : (s.setMem m).hostError = s.hostError := rfl
@[simp] theorem State.setMem_cfg : (s.setMem m).cfg = s.cfg := rfl
@[simp] theorem State.setMem_ioAnswers : (s.setMem m).ioAnswers = s.ioAnswers := rfl
@[simp] theorem State.setMem_ioLog : (s.setMem m).ioLog = s.ioLog := rfl
end setMem

section setFr
variable (s : State) (v : Byte)
@[simp] theorem State.setFr_regs : (s.setFr v).regs = s.regs := rfl
@[simp] theorem State.setFr_i0 : (s.setFr v).i0 = s.i0 := rfl
@[simp] theorem State.setFr_s0 : (s.setFr v).s0 = s.s0 := rfl
@[simp] theorem State.setFr_s1 : (s.setFr v).s1 = s.s1 := rfl
@[simp] theorem State.setFr_fr : (s.setFr v).fr = v &&& flagMask := rfl
@[simp] theorem State.setFr_ivtr : (s.setFr v).ivtr = s.ivtr := rfl
@[simp] theorem State.setFr_ie0 : (s.setFr v).ie0 = s.ie0 := rfl
@[simp] theorem State.setFr_ie1 : (s.setFr v).ie1 = s.ie1 := rfl
@[simp] theorem State.setFr_ie2 : (s.setFr v).ie2 = s.ie2 := rfl
@[simp] theorem State.setFr_ie3 : (s.setFr v).ie3 = s.ie3 := rfl
@[simp] theorem State.setFr_ie4 : (s.setFr v).ie4 = s.ie4 := rfl
@[simp] theorem State.setFr_tpdr : (s.setFr v).tpdr = s.tpdr := rfl
@[simp] theorem State.setFr_tsp : (s.setFr v).tsp = s.tsp := rfl
@[simp] theorem State.setFr_prr : (s.setFr v).prr = s.prr := rfl
@[simp] theorem State.setFr_msr : (s.setFr v).msr = s.msr := rfl
@[simp] theorem State.setFr_mem : (s.setFr v).mem = s.mem := rfl
@[simp] theorem State.setFr_halted : (s.setFr v).halted = s.halted := rfl
@[simp] theorem State.setFr_hostError : (s.setFr v).hostError = s.hostError := rfl
@[simp] theorem State.setFr_cfg : (s.setFr v).cfg = s.cfg := rfl
@[simp] theorem State.setFr_ioAnswers : (s.setFr v).ioAnswers = s.ioAnswers := rfl
@[simp] theorem State.setFr_ioLog : (s.setFr v).ioLog = s.ioLog := rfl
end setFr

section setFlags
variable (s : State) (r : Word) (c v : Bool)
@[simp] theorem State.setFlags_regs : (s.setFlags r c v).regs = s.regs := rfl
@[simp] theorem State.setFlags_i0 : (s.setFlags r c v).i0 = s.i0 := rfl
@[simp] theorem State.setFlags_s0 : (s.setFlags r c v).s0 = s.s0 := rfl
@[simp] theorem State.setFlags_s1 : (s.setFlags r c v).s1 = s.s1 := rfl
@[simp] theorem State.setFlags_fr : (s.setFlags r c v).fr = flagWord r c v &&& flagMask := rfl
@[simp] theorem State.setFlags_ivtr : (s.setFlags r c v).ivtr = s.ivtr := rfl
@[simp] theorem State.setFlags_ie0 : (s.setFlags r c v).ie0 = s.ie0 := rfl
@[simp] theorem State.setFlags_ie1 : (s.setFlags r c v).ie1 = s.ie1 := rfl
@[simp] theorem State.setFlags_ie2 : (s.setFlags r c v).ie2 = s.ie2 := rfl
@[simp] theorem State.setFlags_ie3 : (s.setFlags r c v).ie3 = s.ie3 := rfl
@[simp] theorem State.setFlags_ie4 : (s.setFlags r c v).ie4 = s.ie4 := rfl
@[simp] theorem State.setFlags_tpdr : (s.setFlags r c v).tpdr = s.tpdr := rfl
@[simp] theorem State.setFlags_tsp : (s.setFlags r c v).tsp = s.tsp := rfl
@[simp] theorem State.setFlags_prr : (s.setFlags r c v).prr = s.prr := rfl
@[simp] theorem State.setFlags_msr : (s.setFlags r c v).msr = s.msr := rfl
@[simp] theorem State.setFlags_mem : (s.setFlags r c v).mem = s.mem := rfl
@[simp] theorem State.setFlags_halted : (s.setFlags r c v).halted = s.halted := rfl
@[simp] theorem State.setFlags_hostError : (s.setFlags r c v).hostError = s.hostError := rfl
@[simp] theorem State.setFlags_cfg : (s.setFlags r c v).cfg = s.cfg := rfl
@[simp] theorem State.setFlags_ioAnswers : (s.setFlags r c v).ioAnswers = s.ioAnswers := rfl
@[simp] theorem State.setFlags_ioLog : (s.setFlags r c v).ioLog = s.ioLog := rfl
end setFlags

section hostStop
variable (s : State)
@[simp] theorem State.hostStop_regs : s.hostStop.regs = s.regs := rfl
@[simp] theorem State.hostStop_i0 : s.hostStop.i0 = s.i0 := rfl
@[simp] theorem State.hostStop_s0 : s.hostStop.s0 = s.s0 := rfl
@[simp] theorem State.hostStop_s1 : s.hostStop.s1 = s.s1 := rfl
@[simp] theorem State.hostStop_fr : s.hostStop.fr = s.fr := rfl
@[simp] theorem State.hostStop_ivtr : s.hostStop.ivtr = s.ivtr := rfl
@[simp] theorem State.hostStop_ie0 : s.hostStop.ie0 = s.ie0 := rfl
@[simp] theorem State.hostStop_ie1 : s.hostStop.ie1 = s.ie1 := rfl
@[simp] theorem State.hostStop_ie2 : s.hostStop.ie2 = s.ie2 := rfl
@[simp] theorem State.hostStop_ie3 : s.hostStop.ie3 = s.ie3 := rfl
@[simp] theorem State.hostStop_ie4 : s.hostStop.ie4 = s.ie4 := rfl
@[simp] theorem State.hostStop_tpdr : s.hostStop.tpdr = s.tpdr := rfl
@[simp] theorem State.hostStop_tsp : s.hostStop.tsp = s.tsp := rfl
@[simp] theorem State.hostStop_prr : s.hostStop.prr = s.prr := rfl
@[simp] theorem State.hostStop_msr : s.hostStop.msr = s.msr := rfl
@[simp] theorem State.hostStop_mem : s.hostStop.mem = s.mem := rfl
@[simp] theorem State.hostStop_halted : s.hostStop.halted = s.halted := rfl
@[simp] theorem State.hostStop_hostError : s.hostStop.hostError = true := rfl
@[simp] theorem State.hostStop_cfg : s.hostStop.cfg = s.cfg := rfl
@[simp] theorem State.hostStop_ioAnswers : s.hostStop.ioAnswers = s.ioAnswers := rfl
@[simp] theorem State.hostStop_ioLog : s.hostStop.ioLog = s.ioLog := rfl
end hostStop

section trapReturn
variable (s : State)
@[simp] theorem State.trapReturn_regs : s.trapReturn.regs = s.regs := rfl
@[simp] theorem State.trapReturn_i0 : s.trapReturn.i0 = s.ie1 := rfl
@[simp] theorem State.trapReturn_s0 : s.trapReturn.s0 = s.ie2 := rfl
@[simp] theorem State.trapReturn_s1 : s.trapReturn.s1 = s.s1 := rfl
@[simp] theorem State.trapReturn_fr : s.trapReturn.fr = s.ie3 &&& flagMask := rfl
@[simp] theorem State.trapReturn_ivtr : s.trapReturn.ivtr = s.ivtr := rfl
@[simp] theorem State.trapReturn_ie0 : s.trapReturn.ie0 = s.ie0 := rfl
@[simp] theorem State.trapReturn_ie1 : s.trapReturn.ie1 = s.ie1 := rfl
@[simp] theorem State.trapReturn_ie2 : s.trapReturn.ie2 = s.ie2 := rfl
@[simp] theorem State.trapReturn_ie3 : s.trapReturn.ie3 = s.ie3 := rfl
@[simp] theorem State.trapReturn_ie4 : s.trapReturn.ie4 = s.ie4 := rfl
@[simp] theorem State.trapReturn_tpdr : s.trapReturn.tpdr = s.tpdr := rfl
@[simp] theorem State.trapReturn_tsp : s.trapReturn.tsp = s.tsp := rfl
@[simp] theorem State.trapReturn_prr : s.trapReturn.prr = s.prr := rfl
@[simp] theorem State.trapReturn_msr : s.trapReturn.msr = s.ie4 := rfl
@[simp] theorem State.trapReturn_mem : s.trapReturn.mem = s.mem := rfl
@[simp] theorem State.trapReturn_halted : s.trapReturn.halted = s.halted := rfl
@[simp] theorem State.trapReturn_hostError : s.trapReturn.hostError = s.hostError := rfl
@[simp] theorem State.trapReturn_cfg : s.trapReturn.cfg = s.cfg := rfl
@[simp] theorem State.trapReturn_ioAnswers : s.trapReturn.ioAnswers = s.ioAnswers := rfl
@[simp] theorem State.trapReturn_ioLog : s.trapReturn.ioLog = s.ioLog := rfl
end trapReturn

/-! ### Reading registers back -/

theorem RegNum.eq_of_toNat {a b : RegNum} (h : a.toNat = b.toNat) : a = b := BitVec.eq_of_toNat_eq h

@[simp] theorem State.reg_setReg_same (s : State) (k : RegNum) (v : Word) : (s.setReg k v).reg k = v := by
  simp [State.reg, State.setReg]

theorem State.reg_setReg_ne (s : State) {j k : RegNum} (v : Word) (h : j ≠ k) : (s.setReg k v).reg j = s.reg j := by
  have hn : k.toNat ≠ j.toNat := fun e => h (RegNum.eq_of_toNat e.symm)
  simp [State.reg, State.setReg, hn]

theorem State.reg_setReg (s : State) (j k : RegNum) (v : Word) :
    (s.setReg k v).reg j = if j = k then v else s.reg j := by
  by_cases h : j = k
  · subst h; simp
  · simp [h, State.reg_setReg_ne s v h]

/-- Registers are read from `regs` alone. -/
theorem State.reg_congr {s t : State} (h : t.regs = s.regs) (k : RegNum) : t.reg k = s.reg k := by
  simp [State.reg, h]

@[simp] theorem State.reg_setPc (s : State) (v : Word) (k : RegNum) : (s.setPc v).reg k = s.reg k := rfl
@[simp] theorem State.reg_advance (s : State) (k : RegNum) : (s.advance).reg k = s.reg k := rfl
@[simp] theorem State.reg_setS0 (s : State) (v : Word) (k : RegNum) : (s.setS0 v).reg k = s.reg k := rfl
@[simp] theorem State.reg_setMem (s : State) (m : Memory) (k : RegNum) : (s.setMem m).reg k = s.reg k := rfl
@[simp] theorem State.reg_setFr (s : State) (v : Byte) (k : RegNum) : (s.setFr v).reg k = s.reg k := rfl
@[simp] theorem State.reg_setFlags (s : State) (r : Word) (c v : Bool) (k : RegNum) : (s.setFlags r c v).reg k = s.reg k := rfl
@[simp] theorem State.reg_hostStop (s : State) (k : RegNum) : (s.hostStop).reg k = s.reg k := rfl
@[simp] theorem State.reg_trapReturn (s : State) (k : RegNum) : (s.trapReturn).reg k = s.reg k := rfl

/-! ### The flags after `SetFlags` -/

theorem flagWord_masked (r : Word) (c v : Bool) : flagWord r c v &&& flagMask = flagWord r c v := by
  unfold flagWord flagMask bitAt
  cases r[31] <;> cases (r == 0#32) <;> cases c <;> cases v <;> decide

theorem flagWord_bits (r : Word) (c v : Bool) :
    (flagWord r c v)[0] = c ∧ (flagWord r c v)[1] = (r == 0#32) ∧
    (flagWord r c v)[2] = r[31] ∧ (flagWord r c v)[6] = v ∧ flagWord r c v &&& 0xB8#8 = 0#8 := by
  unfold flagWord bitAt
  cases r[31] <;> cases (r == 0#32) <;> cases c <;> cases v <;> decide

/-- A masked write leaves the reserved bits 0. -/
theorem masked_reserved_zero (v : Byte) : v &&& flagMask &&& 0xB8#8 = 0#8 := by
  rw [BitVec.and_assoc]
  have h : flagMask &&& 0xB8#8 = 0#8 := by decide
  rw [h]
  simp

theorem setFlags_flagsAre (s : State) (r : Word) (c v : Bool) :
    FlagsAre (s.setFlags r c v) c (decide (r = 0#32)) (r[31]) v := by
  have h := flagWord_bits r c v
  simp only [FlagsAre, State.setFlags_fr, flagWord_masked]
  refine ⟨h.1, ?_, h.2.2.1, h.2.2.2.1, h.2.2.2.2⟩
  rw [h.2.1]
  rfl

end Sys2Proof.Machine
end

