-- ==== Sys2Proof/Laws/Ops.lean ====
section
/-! SUPPORT. Once for each shared operation, everything it can do: raw access, the walk, the translated accesses, the trap
entry, the end of an instruction, the port bus. Later proofs cite these instead of unfolding the operations. -/

namespace Sys2Proof.Machine

/-! ### Raw access -/

theorem State.physRead_eq_some {s : State} {pa v : Word} :
    s.physRead pa = some v ↔ pa.toNat + 4 ≤ s.cfg.memSize ∧ Memory.readWord s.mem pa.toNat = v := by
  unfold State.physRead State.inRange
  by_cases h : pa.toNat + 4 ≤ s.cfg.memSize <;> simp [h]

theorem State.physRead_eq_none {s : State} {pa : Word} :
    s.physRead pa = none ↔ ¬ pa.toNat + 4 ≤ s.cfg.memSize := by
  unfold State.physRead State.inRange
  by_cases h : pa.toNat + 4 ≤ s.cfg.memSize <;> simp [h]

theorem State.physWrite_eq_some {s : State} {pa v : Word} {m : Memory} :
    s.physWrite pa v = some m ↔ pa.toNat + 4 ≤ s.cfg.memSize ∧ Memory.writeWord s.mem pa.toNat v = m := by
  unfold State.physWrite State.inRange
  by_cases h : pa.toNat + 4 ≤ s.cfg.memSize <;> simp [h]

theorem State.physWrite_eq_none {s : State} {pa v : Word} :
    s.physWrite pa v = none ↔ ¬ pa.toNat + 4 ≤ s.cfg.memSize := by
  unfold State.physWrite State.inRange
  by_cases h : pa.toNat + 4 ≤ s.cfg.memSize <;> simp [h]

/-- A raw read depends on memory and its size alone. -/
theorem State.physRead_congr {s t : State} (hm : t.mem = s.mem) (hc : t.cfg = s.cfg) (pa : Word) :
    t.physRead pa = s.physRead pa := by
  simp [State.physRead, State.inRange, hm, hc]

/-! ### How an access ends -/

@[simp] theorem Access.bind_done {α β : Type} (a : α) (f : α → Access β) : (Access.done a).bind f = f a := rfl
@[simp] theorem Access.bind_raise {α β : Type} (n ec : Byte) (f : α → Access β) :
    (Access.raise n ec : Access α).bind f = .raise n ec := rfl
@[simp] theorem Access.bind_outOfRange {α β : Type} (f : α → Access β) :
    (Access.outOfRange : Access α).bind f = .outOfRange := rfl
@[simp] theorem Access.bind_pageFault {α β : Type} (f : α → Access β) :
    (Access.pageFault : Access α).bind f = .pageFault := rfl
@[simp] theorem Access.ofOption_some {α : Type} (a : α) : Access.ofOption (some a) = .done a := rfl
@[simp] theorem Access.ofOption_none {α : Type} : Access.ofOption (none : Option α) = .outOfRange := rfl

@[simp] theorem State.conclude_done {α : Type} (s : State) (a : α) (k : α → State) :
    s.conclude (.done a) k = k a := rfl
@[simp] theorem State.conclude_raise {α : Type} (s : State) (n ec : Byte) (k : α → State) :
    s.conclude (.raise n ec) k = s.trigger n ec := rfl
@[simp] theorem State.conclude_outOfRange {α : Type} (s : State) (k : α → State) :
    s.conclude .outOfRange k = s.hostStop := rfl

@[simp] theorem State.conclude_pageFault {α : Type} (s : State) (k : α → State) :
    s.conclude .pageFault k = s.trigger 0x02#8 0#8 := rfl
@[simp] theorem State.conclude_kernelPage {α : Type} (s : State) (k : α → State) :
    s.conclude .kernelPage k = s.trigger 0x03#8 1#8 := rfl
@[simp] theorem State.conclude_reservedSpecial {α : Type} (s : State) (k : α → State) :
    s.conclude .reservedSpecial k = s.trigger 0x03#8 6#8 := rfl
@[simp] theorem State.conclude_divideByZero {α : Type} (s : State) (k : α → State) :
    s.conclude .divideByZero k = s.trigger 0x00#8 0#8 := rfl

/-- An instruction ends with its own writes, with a trap entry, or with the stop. -/
theorem State.conclude_cases {α : Type} (s : State) (x : Access α) (k : α → State) :
    (∃ a, x = .done a ∧ s.conclude x k = k a) ∨
    (∃ n ec, x = .raise n ec ∧ s.conclude x k = s.trigger n ec) ∨
    (x = .outOfRange ∧ s.conclude x k = s.hostStop) := by
  cases x with
  | done a => exact .inl ⟨a, rfl, rfl⟩
  | raise n ec => exact .inr (.inl ⟨n, ec, rfl, rfl⟩)
  | outOfRange => exact .inr (.inr ⟨rfl, rfl⟩)

/-! ### The walk -/

/-- The page-directory index of the source, `(vaddr >> 22) & 0x3FF`, is `va[31:22]` (R70). -/
theorem pdiOf_setWidth (va : Word) : (pdiOf va).setWidth 32 = va >>> 22 := by
  apply BitVec.eq_of_toNat_eq
  have := va.isLt
  simp only [pdiOf, BitVec.toNat_setWidth, BitVec.extractLsb'_toNat, BitVec.toNat_ushiftRight,
    Nat.shiftRight_eq_div_pow]
  omega

/-- The page-table index of the source, `(vaddr >> 12) & 0x3FF`, is `va[21:12]` (R70). -/
theorem ptiOf_setWidth (va : Word) : (ptiOf va).setWidth 32 = (va >>> 12) &&& 0x3FF#32 := by
  apply BitVec.eq_of_toNat_eq
  simp only [ptiOf, BitVec.toNat_setWidth, BitVec.extractLsb'_toNat, BitVec.toNat_and, BitVec.toNat_ushiftRight,
    BitVec.toNat_ofNat, Nat.shiftRight_eq_div_pow]
  rw [show 1023 % 2 ^ 32 = 2 ^ 10 - 1 by norm_num, Nat.and_two_pow_sub_one_eq_mod]
  omega

/-- The offset of the source, `vaddr & 0xFFF`, is `va[11:0]` (R70). -/
theorem offsetOf_setWidth (va : Word) : (offsetOf va).setWidth 32 = va &&& 0xFFF#32 := by
  apply BitVec.eq_of_toNat_eq
  simp only [offsetOf, BitVec.toNat_setWidth, BitVec.extractLsb'_toNat, BitVec.toNat_and, BitVec.toNat_ofNat,
    Nat.shiftRight_eq_div_pow]
  rw [show 4095 % 2 ^ 32 = 2 ^ 12 - 1 by norm_num, Nat.and_two_pow_sub_one_eq_mod]
  omega

/-- The walk gives a translation exactly when the address maps (R72). -/
theorem State.walk_done {s : State} {va : Word} {x : Translation} :
    s.walk va = .done x ↔ s.Maps va x.pde x.pte x.pa := by
  obtain ⟨xd, xt, xp⟩ := x
  simp only [State.walk, State.pdeAddress, pteAddress, physicalOf, entryBase, entryPresent, pdiOf_setWidth,
    ptiOf_setWidth, offsetOf_setWidth, State.Maps]
  cases h1 : s.physRead (s.tpdr + 4#32 * (va >>> 22)) with
  | none => simp
  | some pde =>
    simp only [Access.ofOption_some, Access.bind_done, Option.some.injEq]
    cases h2 : pde[0] with
    | false =>
      simp only [if_true, Access.pageFault, reduceCtorEq, false_iff]
      rintro ⟨rfl, h, -⟩
      simp [h2] at h
    | true =>
      simp only [Bool.true_eq_false, if_false]
      cases h3 : s.physRead ((pde &&& 0xFFFFF000#32) + 4#32 * (va >>> 12 &&& 0x3FF#32)) with
      | none =>
        simp only [Access.ofOption_none, Access.bind_outOfRange, reduceCtorEq, false_iff]
        rintro ⟨rfl, -, h, -⟩
        simp [h3] at h
      | some pte =>
        simp only [Access.ofOption_some, Access.bind_done]
        cases h4 : pte[0] with
        | false =>
          simp only [if_true, Access.pageFault, reduceCtorEq, false_iff]
          rintro ⟨rfl, -, h, h', -⟩
          rw [h3] at h
          cases h
          simp [h4] at h'
        | true =>
          simp only [Bool.true_eq_false, if_false, Access.done.injEq, Translation.mk.injEq]
          constructor
          · rintro ⟨rfl, rfl, rfl⟩
            exact ⟨rfl, h2, h3, h4, rfl⟩
          · rintro ⟨rfl, -, h, -, rfl⟩
            rw [h3] at h
            cases h
            exact ⟨rfl, rfl, rfl⟩

/-- An entry that is not present makes the walk raise PageFault(0) (R73). -/
theorem State.walk_missing {s : State} {va : Word} (h : s.Missing va) : s.walk va = .pageFault := by
  obtain ⟨pde, h1, h2⟩ := h
  simp only [State.walk, State.pdeAddress, pteAddress, entryBase, entryPresent, pdiOf_setWidth, ptiOf_setWidth, h1,
    Access.ofOption_some, Access.bind_done]
  rcases h2 with h2 | ⟨h2, pte, h3, h4⟩
  · simp [h2]
  · simp only [h2, Bool.true_eq_false, if_false, h4, Access.ofOption_some, Access.bind_done, h3, if_true]

/-- An entry outside physical memory stops the walk (R68). -/
theorem State.walk_leaves {s : State} {va : Word} (h : s.WalkLeavesMemory va) : s.walk va = .outOfRange := by
  simp only [State.walk, State.pdeAddress, pteAddress, entryBase, entryPresent, pdiOf_setWidth, ptiOf_setWidth]
  rcases h with h1 | ⟨pde, h1, h2, h3⟩
  · simp [h1]
  · simp only [h1, Access.ofOption_some, Access.bind_done, h2, Bool.true_eq_false, if_false, h3,
      Access.ofOption_none, Access.bind_outOfRange]

/-- The walk's three ends, and nothing else. -/
theorem State.walk_cases (s : State) (va : Word) :
    (∃ pde pte pa, s.Maps va pde pte pa ∧ s.walk va = .done ⟨pde, pte, pa⟩) ∨
    (s.Missing va ∧ s.walk va = .pageFault) ∨ (s.WalkLeavesMemory va ∧ s.walk va = .outOfRange) := by
  cases h1 : s.physRead (s.tpdr + 4#32 * (va >>> 22)) with
  | none => exact .inr (.inr ⟨.inl h1, State.walk_leaves (.inl h1)⟩)
  | some pde =>
    cases h2 : pde[0] with
    | false => exact .inr (.inl ⟨⟨pde, h1, .inl h2⟩, State.walk_missing ⟨pde, h1, .inl h2⟩⟩)
    | true =>
      cases h3 : s.physRead ((pde &&& 0xFFFFF000#32) + 4#32 * (va >>> 12 &&& 0x3FF#32)) with
      | none =>
        have h : s.WalkLeavesMemory va := .inr ⟨pde, h1, h2, h3⟩
        exact .inr (.inr ⟨h, State.walk_leaves h⟩)
      | some pte =>
        cases h4 : pte[0] with
        | false =>
          have h : s.Missing va := ⟨pde, h1, .inr ⟨h2, pte, h4, h3⟩⟩
          exact .inr (.inl ⟨h, State.walk_missing h⟩)
        | true =>
          have h : s.Maps va pde pte ((pte &&& 0xFFFFF000#32) ||| (va &&& 0xFFF#32)) := ⟨h1, h2, h3, h4, rfl⟩
          exact .inl ⟨pde, pte, _, h, State.walk_done.mpr h⟩

/-- The rights check denies exactly when the mode may not access (R76). -/
theorem State.denied_eq_false {s : State} {pde pte pa : Word} :
    s.denied ⟨pde, pte, pa⟩ = false ↔ s.MayAccess pde pte := by
  simp only [State.denied, State.kernel, entryKernelOnly, State.MayAccess]
  cases s.msr[31] <;> cases pde[10] <;> cases pte[10] <;> simp

theorem State.denied_eq_true {s : State} {pde pte pa : Word} :
    s.denied ⟨pde, pte, pa⟩ = true ↔ ¬ s.MayAccess pde pte := by
  rw [← State.denied_eq_false (pa := pa)]
  simp

/-! ### Translated accesses -/

/-- A read of a mapped address the mode may read gives the word there (R80). -/
theorem State.memRead_maps {s : State} {va pde pte pa : Word} (h : s.Maps va pde pte pa)
    (hr : s.cfg.checkReads = false ∨ s.MayAccess pde pte) :
    s.memRead va = .ofOption (s.physRead pa) := by
  have hd : (s.cfg.checkReads && s.denied ⟨pde, pte, pa⟩) = false := by
    rcases hr with hr | hr
    · simp [hr]
    · simp [State.denied_eq_false.mpr hr]
  rw [State.memRead, (State.walk_done (x := ⟨pde, pte, pa⟩)).mpr h, Access.bind_done, hd]
  rfl

/-- Everything a translated read can do (R80). -/
theorem State.memRead_cases (s : State) (va : Word) :
    (∃ pde pte pa v, s.Maps va pde pte pa ∧ (s.cfg.checkReads = false ∨ s.MayAccess pde pte) ∧
      s.physRead pa = some v ∧ s.memRead va = .done v) ∨
    s.memRead va = .pageFault ∨ s.memRead va = .kernelPage ∨ s.memRead va = .outOfRange := by
  rcases s.walk_cases va with ⟨pde, pte, pa, h, -⟩ | ⟨-, h⟩ | ⟨-, h⟩
  · by_cases hr : s.cfg.checkReads = false ∨ s.MayAccess pde pte
    · have hm := State.memRead_maps h hr
      cases hp : s.physRead pa with
      | none => exact .inr (.inr (.inr (by rw [hm, hp]; rfl)))
      | some v => exact .inl ⟨pde, pte, pa, v, h, hr, hp, by rw [hm, hp]; rfl⟩
    · refine .inr (.inr (.inl ?_))
      rw [not_or] at hr
      have hc : s.cfg.checkReads = true := by simpa using hr.1
      have hd : s.denied ⟨pde, pte, pa⟩ = true := State.denied_eq_true.mpr hr.2
      rw [State.memRead, (State.walk_done (x := ⟨pde, pte, pa⟩)).mpr h, Access.bind_done, hc, hd]
      rfl
  · exact .inr (.inl (by rw [State.memRead, h]; rfl))
  · exact .inr (.inr (.inr (by rw [State.memRead, h]; rfl)))

/-- A write to a mapped address the mode may access goes to its four bytes (R81). -/
theorem State.memWrite_maps {s : State} {va pde pte pa : Word} (v : Word) (h : s.Maps va pde pte pa)
    (hr : s.MayAccess pde pte) : s.memWrite va v = .ofOption (s.physWrite pa v) := by
  rw [State.memWrite, (State.walk_done (x := ⟨pde, pte, pa⟩)).mpr h, Access.bind_done, State.denied_eq_false.mpr hr]
  rfl

/-- Everything a translated write can do (R81): in particular the memory it gives is the old one with four bytes
inside physical memory replaced. -/
theorem State.memWrite_cases (s : State) (va v : Word) :
    (∃ pde pte pa, s.Maps va pde pte pa ∧ s.MayAccess pde pte ∧ pa.toNat + 4 ≤ s.cfg.memSize ∧
      s.memWrite va v = .done (Memory.writeWord s.mem pa.toNat v)) ∨
    s.memWrite va v = .pageFault ∨ s.memWrite va v = .kernelPage ∨ s.memWrite va v = .outOfRange := by
  rcases s.walk_cases va with ⟨pde, pte, pa, h, -⟩ | ⟨-, h⟩ | ⟨-, h⟩
  · by_cases hr : s.MayAccess pde pte
    · have hm := State.memWrite_maps v h hr
      cases hp : s.physWrite pa v with
      | none => exact .inr (.inr (.inr (by rw [hm, hp]; rfl)))
      | some m =>
        obtain ⟨hlt, rfl⟩ := State.physWrite_eq_some.mp hp
        exact .inl ⟨pde, pte, pa, h, hr, hlt, by rw [hm, hp]; rfl⟩
    · refine .inr (.inr (.inl ?_))
      rw [State.memWrite, (State.walk_done (x := ⟨pde, pte, pa⟩)).mpr h, Access.bind_done,
        State.denied_eq_true.mpr hr]
      rfl
  · exact .inr (.inl (by rw [State.memWrite, h]; rfl))
  · exact .inr (.inr (.inr (by rw [State.memWrite, h]; rfl)))

/-! ### The trap entry -/

/-- The trap entry saves the context and goes to the handler, or the vector is out of range and the machine stops
(R250, R253). -/
theorem State.trigger_cases (s : State) (n ec : Byte) :
    TrapTaken s (s.trigger n ec) n ec ∨ ¬ s.vectorInMemory n ∧ HostStopped s (s.trigger n ec) := by
  unfold State.trigger State.vectorAddress
  cases h : s.physRead (s.ivtr + 4#32 * n.setWidth 32) with
  | none => exact .inr ⟨State.physRead_eq_none.mp h, rfl⟩
  | some handler => exact .inl ⟨handler, h, rfl⟩

/-- What a trap entry never changes, taken or not (R251). -/
theorem State.trigger_keeps (s : State) (n ec : Byte) :
    (s.trigger n ec).regs = s.regs ∧ (s.trigger n ec).mem = s.mem ∧ (s.trigger n ec).cfg = s.cfg ∧
    (s.trigger n ec).fr = s.fr ∧ (s.trigger n ec).prr = s.prr ∧ (s.trigger n ec).ioLog = s.ioLog ∧
    (s.trigger n ec).halted = s.halted := by
  unfold State.trigger
  cases s.physRead (s.vectorAddress n) <;> simp

/-! ### The port bus -/

/-- An unmapped port reads 0 and leaves no trace (R90). -/
theorem State.io_unmapped {s : State} {p : Port} (h : p ∉ s.cfg.ioMapped) (v : Word) :
    s.ioRead p = 0#32 ∧ s.ioReadDone p = s ∧ s.ioWrite p v = s := by
  simp [State.ioRead, State.ioReadDone, State.ioWrite, State.portMapped, h]

/-- A mapped port answers the environment's next answer, and the access is recorded (R90). -/
theorem State.io_mapped {s : State} {p : Port} (h : p ∈ s.cfg.ioMapped) (v : Word) :
    s.ioRead p = s.deviceAnswer p ∧
    s.ioReadDone p = { s with ioAnswers := s.ioAnswers.tail, ioLog := s.ioLog ++ [.read p (s.deviceAnswer p)] } ∧
    s.ioWrite p v = { s with ioLog := s.ioLog ++ [.write p v] } := by
  simp [State.ioRead, State.ioReadDone, State.ioWrite, State.portMapped, h]

end Sys2Proof.Machine
end

