-- ==== Sys2Proof/Laws/Effects.lean ====
section
/-! SUPPORT. What the shared ends of instructions do, in the terms of Sys2Proof/Safety.lean: the ALU end, the register move, the
completing store, the trap, and the words and bytes of memory. -/

namespace Sys2Proof.Machine

/-- A word of memory as the claims spell it. -/
theorem wordAt_eq (s : State) (pa : Nat) : wordAt s pa = Memory.readWord s.mem pa := rfl

/-- `SetFlags`, in the bits of `FR` (R150). -/
theorem FlagsAre.of_fr {s t : State} (h : t.fr = s.fr) {c z g v : Bool} (hs : FlagsAre s c z g v) :
    FlagsAre t c z g v := by
  simpa only [FlagsAre, h] using hs

/-- The common end of the ALU instructions (R144, R150). -/
theorem State.writeResult_effect (s : State) (rd : RegNum) (r : Word) (c v : Bool) :
    AluEffect s (s.writeResult rd r c v) rd r c v := by
  refine ⟨by simp [State.writeResult], ?_, rfl, fun k hk => ?_, fun x hx => ?_, fun a => rfl, rfl, rfl, rfl, rfl, rfl⟩
  · exact FlagsAre.of_fr (by rfl) (setFlags_flagsAre (s.setReg rd r) r c v)
  · have hk' : k ≠ rd := by simpa using hk
    simp [State.writeResult, State.reg_setReg_ne s r hk']
  · cases x <;> first | rfl | simp at hx

/-- A register written, then the advance. -/
theorem State.moveTo_effect (s : State) (rd : RegNum) (r : Word) : MoveEffect s (s.setReg rd r).advance rd r := by
  refine ⟨by simp, rfl, fun k hk => ?_, fun x hx => ?_, fun a => rfl, rfl, rfl, rfl, rfl, rfl⟩
  · have hk' : k ≠ rd := by simpa using hk
    simp [State.reg_setReg_ne s r hk']
  · cases x <;> first | rfl | simp at hx

/-- A word stored (R61, R67). -/
theorem StoreEffect.of_mem {s t : State} {pa : Nat} {v : Word} (h : t.mem = Memory.writeWord s.mem pa v) :
    StoreEffect s t pa v := by
  refine ⟨fun a ha => ?_, fun hw => ?_⟩
  · rw [h, Memory.read_writeWord_ne _ _ ha]
  · have := Memory.read_writeWord_bytes hw pa v
    simpa only [MemoryHolds, h] using this

/-- Where a mapped word lies in memory, a read of it completes (R80). -/
theorem State.memRead_done {s : State} {va pde pte pa : Word} (h : s.Maps va pde pte pa)
    (hr : s.cfg.checkReads = false ∨ s.MayAccess pde pte) (hp : pa.toNat + 4 ≤ s.cfg.memSize) :
    s.memRead va = .done (wordAt s pa.toNat) := by
  rw [State.memRead_maps h hr, State.physRead_eq_some.mpr ⟨hp, rfl⟩]
  rfl

/-- Where a mapped word lies in memory, a write of it completes (R81). -/
theorem State.memWrite_done {s : State} {va pde pte pa : Word} (v : Word) (h : s.Maps va pde pte pa)
    (hr : s.MayAccess pde pte) (hp : pa.toNat + 4 ≤ s.cfg.memSize) :
    s.memWrite va v = .done (Memory.writeWord s.mem pa.toNat v) := by
  rw [State.memWrite_maps v h hr, State.physWrite_eq_some.mpr ⟨hp, rfl⟩]
  rfl

/-- The trap entry, both ways it can go (R250, R253). -/
theorem State.trigger_trapped (s : State) (n ec : Byte) : Trapped s (s.trigger n ec) n ec := by
  unfold State.trigger State.vectorAddress
  cases h : s.physRead (s.ivtr + 4#32 * n.setWidth 32) with
  | none =>
    have hn : ¬ s.vectorInMemory n := State.physRead_eq_none.mp h
    exact ⟨fun h' => absurd h' hn, fun _ => rfl⟩
  | some handler =>
    have hv : s.vectorInMemory n := (State.physRead_eq_some.mp h).1
    exact ⟨fun _ => ⟨handler, h, rfl⟩, fun h' => absurd hv h'⟩

/-- A page of the walk that is missing traps (R73). -/
theorem State.missing_traps {s : State} {va : Word} (h : s.Missing va) (v : Word) :
    s.memRead va = .pageFault ∧ s.memWrite va v = .pageFault := by
  constructor
  · rw [State.memRead, State.walk_missing h]; rfl
  · rw [State.memWrite, State.walk_missing h]; rfl

/-- A walk that leaves memory stops both accesses (R68). -/
theorem State.leaves_stops {s : State} {va : Word} (h : s.WalkLeavesMemory va) (v : Word) :
    s.memRead va = .outOfRange ∧ s.memWrite va v = .outOfRange := by
  constructor
  · rw [State.memRead, State.walk_leaves h]; rfl
  · rw [State.memWrite, State.walk_leaves h]; rfl

/-- A denied access raises GeneralProtectionFault(1) (R76, R80, R81). -/
theorem State.denied_raises {s : State} {va pde pte pa : Word} (h : s.Maps va pde pte pa) (hd : ¬ s.MayAccess pde pte)
    (v : Word) : (s.cfg.checkReads = true → s.memRead va = .kernelPage) ∧ s.memWrite va v = .kernelPage := by
  constructor
  · intro hc
    rw [State.memRead, (State.walk_done (x := ⟨pde, pte, pa⟩)).mpr h, Access.bind_done, hc,
      State.denied_eq_true.mpr hd]
    rfl
  · rw [State.memWrite, (State.walk_done (x := ⟨pde, pte, pa⟩)).mpr h, Access.bind_done, State.denied_eq_true.mpr hd]
    rfl

/-- A number names a register exactly when it is below 14 (R30). -/
theorem specialOf_isSome (n : RegNum) : (specialOf n).isSome = decide (n.toNat < 14) := by
  revert n
  decide

/-- The register a number names stands at that place of the list of all (R30). -/
theorem specialsInOrder_get (s : State) (n : RegNum) :
    (specialsInOrder s)[n.toNat]? = (specialOf n).map s.readSpecial := by
  have h : ∀ k : Fin 32, (specialsInOrder s)[k.val]? = (specialOf (BitVec.ofFin k)).map s.readSpecial := by
    intro k
    fin_cases k <;> rfl
  exact h n.toFin

end Sys2Proof.Machine
end

