-- ==== Sys2Proof/Laws/PerInstr.lean ====
section
/-! SUPPORT. The family Encodable: the encoder refuses no instruction (spec/30_encoding.md R116). Every record an
instruction stands for has fields that fit and an opcode of its class. -/

namespace Sys2Proof.Laws

/-- The record of the instruction is well formed and the encoder gives its word. -/
def Encodable.Statement (i : Instr) : Prop :=
  i.toRecord.wellFormed = true ∧ encodeRecord i.toRecord = .ok (encode i)

/-- A well-formed record is encoded as its word. -/
theorem Encodable.of_wellFormed {i : Instr} (h : i.toRecord.wellFormed = true) : Encodable.Statement i :=
  ⟨h, by simp [encodeRecord, h, encode]⟩

theorem Encodable.regNum_lt (k : RegNum) : decide (k.toNat < 32) = true := decide_eq_true k.isLt
theorem Encodable.shamt_lt (k : BitVec 6) : decide (k.toNat < 64) = true := decide_eq_true k.isLt
theorem Encodable.word_lt (v : Word) : decide (v.toNat < 2 ^ 32) = true := decide_eq_true v.isLt

theorem Encodable.add (rd : RegNum) (rs1 : RegNum) (rs2 : RegNum) : Encodable.Statement (.add rd rs1 rs2) :=
  of_wellFormed (by simp only [Instr.toRecord, Record.wellFormed, regNum_lt]; decide)

theorem Encodable.sub (rd : RegNum) (rs1 : RegNum) (rs2 : RegNum) : Encodable.Statement (.sub rd rs1 rs2) :=
  of_wellFormed (by simp only [Instr.toRecord, Record.wellFormed, regNum_lt]; decide)

theorem Encodable.and (rd : RegNum) (rs1 : RegNum) (rs2 : RegNum) : Encodable.Statement (.and rd rs1 rs2) :=
  of_wellFormed (by simp only [Instr.toRecord, Record.wellFormed, regNum_lt]; decide)

theorem Encodable.or (rd : RegNum) (rs1 : RegNum) (rs2 : RegNum) : Encodable.Statement (.or rd rs1 rs2) :=
  of_wellFormed (by simp only [Instr.toRecord, Record.wellFormed, regNum_lt]; decide)

theorem Encodable.xor (rd : RegNum) (rs1 : RegNum) (rs2 : RegNum) : Encodable.Statement (.xor rd rs1 rs2) :=
  of_wellFormed (by simp only [Instr.toRecord, Record.wellFormed, regNum_lt]; decide)

theorem Encodable.lsl (rd : RegNum) (rs1 : RegNum) (shamt : BitVec 6) : Encodable.Statement (.lsl rd rs1 shamt) :=
  of_wellFormed (by simp only [Instr.toRecord, Record.wellFormed, regNum_lt, shamt_lt]; decide)

theorem Encodable.lsr (rd : RegNum) (rs1 : RegNum) (shamt : BitVec 6) : Encodable.Statement (.lsr rd rs1 shamt) :=
  of_wellFormed (by simp only [Instr.toRecord, Record.wellFormed, regNum_lt, shamt_lt]; decide)

theorem Encodable.ldr (rd : RegNum) (rs1 : RegNum) (imm : Word) : Encodable.Statement (.ldr rd rs1 imm) :=
  of_wellFormed (by simp only [Instr.toRecord, Record.wellFormed, regNum_lt, word_lt]; decide)

theorem Encodable.str (rd : RegNum) (rs1 : RegNum) (imm : Word) : Encodable.Statement (.str rd rs1 imm) :=
  of_wellFormed (by simp only [Instr.toRecord, Record.wellFormed, regNum_lt, word_lt]; decide)

theorem Encodable.jmp (address : Word) : Encodable.Statement (.jmp address) :=
  of_wellFormed (by simp only [Instr.toRecord, Record.wellFormed, word_lt]; decide)

theorem Encodable.jal (address : Word) : Encodable.Statement (.jal address) :=
  of_wellFormed (by simp only [Instr.toRecord, Record.wellFormed, word_lt]; decide)

theorem Encodable.beq (imm : Word) : Encodable.Statement (.beq imm) :=
  of_wellFormed (by simp only [Instr.toRecord, Record.wellFormed, word_lt]; decide)

theorem Encodable.bne (imm : Word) : Encodable.Statement (.bne imm) :=
  of_wellFormed (by simp only [Instr.toRecord, Record.wellFormed, word_lt]; decide)

theorem Encodable.mov (rd : RegNum) (rs1 : RegNum) : Encodable.Statement (.mov rd rs1) :=
  of_wellFormed (by simp only [Instr.toRecord, Record.wellFormed, regNum_lt]; decide)

theorem Encodable.cmp (rd : RegNum) (rs1 : RegNum) : Encodable.Statement (.cmp rd rs1) :=
  of_wellFormed (by simp only [Instr.toRecord, Record.wellFormed, regNum_lt]; decide)

theorem Encodable.push (rd : RegNum) : Encodable.Statement (.push rd) :=
  of_wellFormed (by simp only [Instr.toRecord, Record.wellFormed, regNum_lt]; decide)

theorem Encodable.pop (rd : RegNum) : Encodable.Statement (.pop rd) :=
  of_wellFormed (by simp only [Instr.toRecord, Record.wellFormed, regNum_lt]; decide)

theorem Encodable.call (address : Word) : Encodable.Statement (.call address) :=
  of_wellFormed (by simp only [Instr.toRecord, Record.wellFormed, word_lt]; decide)

theorem Encodable.ret : Encodable.Statement .ret :=
  of_wellFormed (by decide)

theorem Encodable.iret : Encodable.Statement .iret :=
  of_wellFormed (by decide)

theorem Encodable.nop : Encodable.Statement .nop :=
  of_wellFormed (by decide)

theorem Encodable.hlt : Encodable.Statement .hlt :=
  of_wellFormed (by decide)

theorem Encodable.mul (rd : RegNum) (rs1 : RegNum) (rs2 : RegNum) : Encodable.Statement (.mul rd rs1 rs2) :=
  of_wellFormed (by simp only [Instr.toRecord, Record.wellFormed, regNum_lt]; decide)

theorem Encodable.div (rd : RegNum) (rs1 : RegNum) (rs2 : RegNum) : Encodable.Statement (.div rd rs1 rs2) :=
  of_wellFormed (by simp only [Instr.toRecord, Record.wellFormed, regNum_lt]; decide)

theorem Encodable.mod (rd : RegNum) (rs1 : RegNum) (rs2 : RegNum) : Encodable.Statement (.mod rd rs1 rs2) :=
  of_wellFormed (by simp only [Instr.toRecord, Record.wellFormed, regNum_lt]; decide)

theorem Encodable.not (rd : RegNum) (rs1 : RegNum) : Encodable.Statement (.not rd rs1) :=
  of_wellFormed (by simp only [Instr.toRecord, Record.wellFormed, regNum_lt]; decide)

theorem Encodable.neg (rd : RegNum) (rs1 : RegNum) : Encodable.Statement (.neg rd rs1) :=
  of_wellFormed (by simp only [Instr.toRecord, Record.wellFormed, regNum_lt]; decide)

theorem Encodable.inc (rd : RegNum) : Encodable.Statement (.inc rd) :=
  of_wellFormed (by simp only [Instr.toRecord, Record.wellFormed, regNum_lt]; decide)

theorem Encodable.dec (rd : RegNum) : Encodable.Statement (.dec rd) :=
  of_wellFormed (by simp only [Instr.toRecord, Record.wellFormed, regNum_lt]; decide)

theorem Encodable.asl (rd : RegNum) (rs1 : RegNum) (shamt : BitVec 6) : Encodable.Statement (.asl rd rs1 shamt) :=
  of_wellFormed (by simp only [Instr.toRecord, Record.wellFormed, regNum_lt, shamt_lt]; decide)

theorem Encodable.asr (rd : RegNum) (rs1 : RegNum) (shamt : BitVec 6) : Encodable.Statement (.asr rd rs1 shamt) :=
  of_wellFormed (by simp only [Instr.toRecord, Record.wellFormed, regNum_lt, shamt_lt]; decide)

theorem Encodable.swi (imm : Word) : Encodable.Statement (.swi imm) :=
  of_wellFormed (by simp only [Instr.toRecord, Record.wellFormed, word_lt]; decide)

theorem Encodable.sext (rd : RegNum) (rs1 : RegNum) : Encodable.Statement (.sext rd rs1) :=
  of_wellFormed (by simp only [Instr.toRecord, Record.wellFormed, regNum_lt]; decide)

theorem Encodable.zext (rd : RegNum) (rs1 : RegNum) : Encodable.Statement (.zext rd rs1) :=
  of_wellFormed (by simp only [Instr.toRecord, Record.wellFormed, regNum_lt]; decide)

theorem Encodable.mfs (rd : RegNum) (spec : RegNum) : Encodable.Statement (.mfs rd spec) :=
  of_wellFormed (by simp only [Instr.toRecord, Record.wellFormed, regNum_lt]; decide)

theorem Encodable.mts (spec : RegNum) (rs : RegNum) : Encodable.Statement (.mts spec rs) :=
  of_wellFormed (by simp only [Instr.toRecord, Record.wellFormed, regNum_lt]; decide)

theorem Encodable.out (rd : RegNum) (rs1 : RegNum) : Encodable.Statement (.out rd rs1) :=
  of_wellFormed (by simp only [Instr.toRecord, Record.wellFormed, regNum_lt]; decide)

theorem Encodable.inp (rd : RegNum) (rs1 : RegNum) : Encodable.Statement (.inp rd rs1) :=
  of_wellFormed (by simp only [Instr.toRecord, Record.wellFormed, regNum_lt]; decide)

end Sys2Proof.Laws
end

