-- ==== Sys2Proof/Laws/Step.lean ====
section
/-! SUPPORT. Everything one step can do, and everything the end of an instruction can be (spec/40_execution_cycle.md R140 to
R147). -/

namespace Sys2Proof.Machine

/-- The three ends of an instruction that made an access, in the terms of the claims. -/
theorem State.conclude_ends {α : Type} {s t : State} {x : Access α} {k : α → State} (h : s.conclude x k = t) :
    (∃ a, x = .done a ∧ t = k a) ∨ (∃ n ec, TrapTaken s t n ec) ∨ HostStopped s t := by
  rcases State.conclude_cases s x k with ⟨a, h1, h2⟩ | ⟨n, ec, -, h2⟩ | ⟨-, h2⟩
  · exact .inl ⟨a, h1, by rw [← h, h2]⟩
  · right
    rw [← h, h2]
    rcases State.trigger_cases s n ec with h | h
    · exact .inl ⟨n, ec, h⟩
    · exact .inr h.2
  · exact .inr (.inr (by rw [← h, h2]; rfl))

/-- A step that answers a next state ran a decoded instruction, took a trap, or stopped the machine. -/
theorem step_cases {s t : State} (h : step s = .next t) :
    s.running ∧ ((∃ w i, s.fetch = .done w ∧ decode w = .ok i ∧ exec i s = .next t) ∨
      (∃ n ec, TrapTaken s t n ec) ∨ HostStopped s t) := by
  unfold step at h
  split at h
  · cases h
  · split at h
    · cases h
    · rename_i h1 h2
      refine ⟨⟨by simpa using h2, by simpa using h1⟩, ?_⟩
      split at h
      · cases h
        exact .inr (.inr rfl)
      · rename_i n ec _
        cases h
        rcases State.trigger_cases s n ec with h | h
        · exact .inr (.inl ⟨_, _, h⟩)
        · exact .inr (.inr h.2)
      · rename_i w hw
        split at h
        · cases h
          rcases State.trigger_cases s Interrupt.invalidOpcode.number zeroCode with h | h
          · exact .inr (.inl ⟨_, _, h⟩)
          · exact .inr (.inr h.2)
        · exact .inl ⟨w, _, hw, by assumption, h⟩

/-- A raw fetch inside memory gives the eight bytes at `I0` (R61, R141). -/
theorem State.fetch_raw {s : State} (h : s.cfg.fetchTranslated = false) (hf : s.fetchInMemory) :
    s.fetch = .done s.wordAtPc := by
  simp only [State.fetch, State.fetchHalf, h, Bool.false_eq_true, if_false]
  rw [State.physRead_eq_some.mpr ⟨hf.1, rfl⟩, State.physRead_eq_some.mpr ⟨hf.2, rfl⟩]
  rfl

/-- A running machine that fetched a word runs it or delivers InvalidOpcode (R142, R143). -/
theorem step_fetched {s : State} {w : InstrWord} (hr : s.running) (h : s.fetch = .done w) :
    step s = match decode w with
      | .error _ => .next (s.trigger Interrupt.invalidOpcode.number zeroCode)
      | .ok i => exec i s := by
  cases hd : decode w <;> simp only [step, hr.1, hr.2, h, hd, Bool.false_eq_true, if_false]

/-- A write of a special register touches neither memory nor the parameters nor the terminal flags, and keeps the
reserved bits of `FR` 0 (R28, R228). -/
theorem State.writeSpecial_keeps (s : State) (r : SpecialReg) (v : Word) :
    (s.writeSpecial r v).mem = s.mem ∧ (s.writeSpecial r v).cfg = s.cfg ∧ (s.writeSpecial r v).prr = s.prr ∧
    (s.writeSpecial r v).hostError = s.hostError ∧ (s.writeSpecial r v).halted = s.halted ∧
    (s.reservedFlagsZero → (s.writeSpecial r v).reservedFlagsZero) := by
  cases r <;> refine ⟨rfl, rfl, rfl, rfl, rfl, ?_⟩ <;> first | exact id | (intro _; exact masked_reserved_zero _)

end Sys2Proof.Machine
end

