-- ==== Sys2Proof/Tests/Slice0.lean ====
section
/-! SUPPORT. Tests. The expected values are the spec's own: spec/95_test_vectors.md (scenarios S1 to S6, tables 2.1 to 2.8,
negative vectors N1 to N5) and the examples of the instruction rules. After them, for every statement with hypotheses,
a witness that meets them. -/

namespace Sys2Proof.Tests

open Sys2Proof.Machine

/-! ### Well-formedness: one ill-formed term for each check (spec/30_encoding.md R116, spec/00_scope.md R6) -/

theorem test_record_r_well_formed : (Record.r 0x1F 31 31 31 63 255).wellFormed = true := by decide
theorem test_record_r_wrong_class : (Record.r 0x08 1 1 1 0 0).wellFormed = false := by decide
theorem test_record_r_illegal_opcode : (Record.r 0x27 1 1 1 0 0).wellFormed = false := by decide
theorem test_record_r_opcode_too_wide : (Record.r 0x41 1 1 1 0 0).wellFormed = false := by decide
theorem test_record_r_rd : (Record.r 0x01 32 1 1 0 0).wellFormed = false := by decide
theorem test_record_r_rs1 : (Record.r 0x01 1 32 1 0 0).wellFormed = false := by decide
theorem test_record_r_rs2 : (Record.r 0x01 1 1 32 0 0).wellFormed = false := by decide
theorem test_record_r_shamt : (Record.r 0x06 1 1 0 64 0).wellFormed = false := by decide
theorem test_record_r_func : (Record.r 0x01 1 1 1 0 256).wellFormed = false := by decide
theorem test_record_i_well_formed : (Record.i 0x26 31 31 0xFFFFFFFF).wellFormed = true := by decide
theorem test_record_i_wrong_class : (Record.i 0x0A 1 1 0).wellFormed = false := by decide
theorem test_record_i_rd : (Record.i 0x08 32 1 0).wellFormed = false := by decide
/-- The sentinel as the source writes it, 0x2D, does not fit (R120). -/
theorem test_record_i_rs1_source_sentinel : (Record.i 0x08 1 0x2D 0).wellFormed = false := by decide
theorem test_record_i_imm : (Record.i 0x08 1 1 0x100000000).wellFormed = false := by decide
theorem test_record_j_well_formed : (Record.j 0x16 0xFFFFFFFF).wellFormed = true := by decide
theorem test_record_j_wrong_class : (Record.j 0x01 0).wellFormed = false := by decide
theorem test_record_j_address : (Record.j 0x0A 0x100000000).wellFormed = false := by decide
theorem test_encoder_refuses : encodeRecord (.r 0x01 32 1 1 0 0) = .error (.illFormed (.r 0x01 32 1 1 0 0)) := by decide
theorem test_config_well_formed : Config.wellFormed { memSize := 0x100000000, ioMapped := [0x10, 0x20] } = true := by decide
theorem test_config_no_memory : Config.wellFormed { memSize := 0 } = false := by decide
theorem test_config_memory_too_large : Config.wellFormed { memSize := 0x100000001 } = false := by decide
theorem test_config_port_twice : Config.wellFormed { ioMapped := [0x10, 0x10] } = false := by decide

/-! ### Decoding: every constructor, by the words of spec/95_test_vectors.md section 2 -/

theorem test_decode_r :
    decode 0x0461100000000000#64 = .ok (.add 3 1 2) ∧ decode 0x0861100000000000#64 = .ok (.sub 3 1 2) ∧
    decode 0x0C61100000000000#64 = .ok (.and 3 1 2) ∧ decode 0x1061100000000000#64 = .ok (.or 3 1 2) ∧
    decode 0x1461100000000000#64 = .ok (.xor 3 1 2) ∧ decode 0x186103E000000000#64 = .ok (.lsl 3 1 31) ∧
    decode 0x1C61042000000000#64 = .ok (.lsr 3 1 33) ∧ decode 0x5C61100000000000#64 = .ok (.mul 3 1 2) ∧
    decode 0x6061100000000000#64 = .ok (.div 3 1 2) ∧ decode 0x6461100000000000#64 = .ok (.mod 3 1 2) ∧
    decode 0x6861000000000000#64 = .ok (.not 3 1) ∧ decode 0x6C61000000000000#64 = .ok (.neg 3 1) ∧
    decode 0x7060000000000000#64 = .ok (.inc 3) ∧ decode 0x7460000000000000#64 = .ok (.dec 3) ∧
    decode 0x7861008000000000#64 = .ok (.asl 3 1 4) ∧ decode 0x7C6107E000000000#64 = .ok (.asr 3 1 63) := by decide

theorem test_decode_i :
    decode 0x2022FFFFFFFC0000#64 = .ok (.ldr 1 2 0xFFFFFFFC) ∧ decode 0x242D000000440000#64 = .ok (.str 1 13 0x44) ∧
    decode 0x3000000000100000#64 = .ok (.beq 16) ∧ decode 0x3400FFFFFFF00000#64 = .ok (.bne 0xFFFFFFF0) ∧
    decode 0x3822000000000000#64 = .ok (.mov 1 2) ∧ decode 0x3C22000000000000#64 = .ok (.cmp 1 2) ∧
    decode 0x40A0000000000000#64 = .ok (.push 5) ∧ decode 0x44C0000000000000#64 = .ok (.pop 6) ∧
    decode 0x8000000001FF0000#64 = .ok (.swi 0x1FF) ∧ decode 0x8422000000000000#64 = .ok (.sext 1 2) ∧
    decode 0x8822000000000000#64 = .ok (.zext 1 2) ∧ decode 0x8C8D000000000000#64 = .ok (.mfs 4 13) ∧
    decode 0x9141000000000000#64 = .ok (.mts 10 1) ∧ decode 0x9422000000000000#64 = .ok (.out 1 2) ∧
    decode 0x9822000000000000#64 = .ok (.inp 1 2) := by decide

theorem test_decode_j :
    decode 0x2800008000000000#64 = .ok (.jmp 0x2000) ∧ decode 0x2C00008000000000#64 = .ok (.jal 0x2000) ∧
    decode 0x4800000100000000#64 = .ok (.call 0x40) ∧ decode 0x4C00000000000000#64 = .ok .ret ∧
    decode 0x5000000000000000#64 = .ok .iret ∧ decode 0x5400000000000000#64 = .ok .nop ∧
    decode 0x5800000000000000#64 = .ok .hlt := by decide

/-- The 26 illegal opcodes (R111). -/
theorem test_decode_illegal : ∀ op : BitVec 6, op = 0 ∨ 0x27#6 ≤ op →
    decode (op ++ 0#58) = .error (.invalidOpcode op) := by decide

/-- Table 2.8: bits that no field uses are ignored. -/
theorem test_decode_ignored_bits :
    decode 0x04A63FFFFFFFFFFF#64 = .ok (.add 5 6 7) ∧ decode 0x3822FFFFFFFFFFFF#64 = .ok (.mov 1 2) ∧
    decode 0x5400000003FFFFFF#64 = .ok .nop := by decide

/-- R115: the record keeps every field of its format. -/
theorem test_decode_record : decodeRecord 0x04A63FFFFFFFFFFF#64 = .ok (.r 0x01 5 6 7 63 255) := by decide

/-- R135, R116. -/
theorem test_encode :
    encode (.add 5 6 7) = 0x04A6380000000000#64 ∧ encode (.ldr 1 13 0x40) = 0x202D000000400000#64 ∧
    encode (.jmp 0x2000) = 0x2800008000000000#64 ∧ encode (.asr 3 1 63) = 0x7C6107E000000000#64 := by decide

/-- R135: the bytes in memory, lowest address first. -/
theorem test_encode_bytes : encodeBytes (.add 5 6 7) = [0, 0, 0, 0, 0, 0x38, 0xA6, 0x04] := by decide

theorem test_decode_table_word :
    decodeTableWord 64 0x04A6380000000000 = some (.add 5 6 7) ∧ decodeTableWord 64 0 = none := by decide

theorem test_decode_bytes_short : decodeBytes [0, 0, 0, 0, 0, 0x38, 0xA6] = .error .truncated := by decide

/-! ### One step from a small state: the instruction sits at 0x100 -/

/-- Words placed in memory one after the other. -/
def poke (m : Memory) : List (Nat × Word) → Memory
  | [] => m
  | (a, v) :: rest => poke (Memory.writeWord m a v) rest

/-- The reset state with a word at `I0 = 0x100` and some data words. -/
def at100 (w : InstrWord) (data : List (Nat × Word) := []) : State :=
  { State.reset with
    i0 := 0x100
    mem := poke [] ((0x100, w.extractLsb' 0 32) :: (0x104, w.extractLsb' 32 32) :: data) }

/-- The identity mapping of section 3.1, as far as page 15: page directory at 0x1000, page table at 0x2000. -/
def identity : List (Nat × Word) :=
  (0x1000, 0x2001) :: (List.range 16).map fun i => (0x2000 + 4 * i, BitVec.ofNat 32 (i * 4096 + 1))

/-- As `at100`, with the identity mapping and `TPDR` at it. -/
def paged (w : InstrWord) (data : List (Nat × Word) := []) : State :=
  { at100 w (identity ++ data) with tpdr := 0x1000 }

/-- The state a step goes on in. -/
def after (s : State) : State :=
  match step s with
  | .next t => t
  | _ => s

/-- `R3`, `FR` and `I0` after an ALU instruction on `R1` and `R2`, `FR` being 0x47 before. -/
def alu (w : InstrWord) (a b : Word) : Word × Byte × Word :=
  let t := after { ((at100 w).setReg 1 a).setReg 2 b with fr := 0x47 }
  (t.reg 3, t.fr, t.i0)

theorem test_add_carry : alu 0x0461100000000000#64 0x80000000 0x80000000 = (0, 0x43, 0x108) := by decide
theorem test_add_overflow : alu 0x0461100000000000#64 0x7FFFFFFF 1 = (0x80000000, 0x44, 0x108) := by decide
theorem test_sub_borrow : alu 0x0861100000000000#64 3 5 = (0xFFFFFFFE, 0x05, 0x108) := by decide
theorem test_sub_overflow : alu 0x0861100000000000#64 0 0x80000000 = (0x80000000, 0x45, 0x108) := by decide
theorem test_and : alu 0x0C61100000000000#64 0xF0F0F0F0 0xFF00FF00 = (0xF000F000, 0x04, 0x108) := by decide
theorem test_or : alu 0x1061100000000000#64 0xF0F0F0F0 0x0F0F0F0F = (0xFFFFFFFF, 0x04, 0x108) := by decide
theorem test_xor : alu 0x1461100000000000#64 0xAAAAAAAA 0xAAAAAAAA = (0, 0x02, 0x108) := by decide
theorem test_mul_signed_fits : alu 0x5C61100000000000#64 0xFFFFFFFF 0xFFFFFFFF = (1, 0x01, 0x108) := by decide
theorem test_mul_overflow : alu 0x5C61100000000000#64 0x40000000 2 = (0x80000000, 0x44, 0x108) := by decide
theorem test_div_unsigned : alu 0x6061100000000000#64 0xFFFFFFF9 2 = (0x7FFFFFFC, 0x00, 0x108) := by decide
theorem test_mod_unsigned : alu 0x6461100000000000#64 0xFFFFFFF9 2 = (1, 0x00, 0x108) := by decide
theorem test_not : alu 0x6861000000000000#64 0x12345678 0 = (0xEDCBA987, 0x04, 0x108) := by decide
theorem test_neg_min : alu 0x6C61000000000000#64 0x80000000 0 = (0x80000000, 0x04, 0x108) := by decide
theorem test_lsl_32 : alu 0x1861040000000000#64 1 0 = (0, 0x03, 0x108) := by decide
theorem test_lsl_33 : alu 0x1861042000000000#64 0xFFFFFFFF 0 = (0, 0x02, 0x108) := by decide
theorem test_lsr_1 : alu 0x1C61002000000000#64 0x80000001 0 = (0x40000000, 0x01, 0x108) := by decide
theorem test_lsr_33 : alu 0x1C61042000000000#64 0xFFFFFFFF 0 = (0, 0x02, 0x108) := by decide
theorem test_asl_4 : alu 0x7861008000000000#64 0xFFFFFFFF 0 = (0xFFFFFFF0, 0x05, 0x108) := by decide
theorem test_asr_63 : alu 0x7C6107E000000000#64 0x80000000 0 = (0xFFFFFFFF, 0x05, 0x108) := by decide
theorem test_asr_31 : alu 0x7C6103E000000000#64 0x7FFFFFFF 0 = (0, 0x03, 0x108) := by decide

/-- `R3` and `FR` after `INC` or `DEC` of `R3`. -/
def inPlace (w : InstrWord) (a : Word) : Word × Byte :=
  let t := after { (at100 w).setReg 3 a with fr := 0x47 }
  (t.reg 3, t.fr)

theorem test_inc_wraps : inPlace 0x7060000000000000#64 0xFFFFFFFF = (0, 0x02) := by decide
theorem test_dec_wraps : inPlace 0x7460000000000000#64 0 = (0xFFFFFFFF, 0x04) := by decide

/-- Decision D9: the signed reading, which wraps on its one overflow case. -/
theorem test_div_signed_wraps :
    quotient true 0x80000000 0xFFFFFFFF = 0x80000000 ∧ remainder true 0x80000000 0xFFFFFFFF = 0 ∧
    quotient true 0xFFFFFFF9 2 = 0xFFFFFFFD ∧ remainder true 0xFFFFFFF9 2 = 0xFFFFFFFF := by decide

/-- `R1`, `R2`, `FR` after a register instruction `R1, R2`, `FR` being 0x45 before. -/
def move (w : InstrWord) (a b : Word) : Word × Word × Byte :=
  let t := after { ((at100 w).setReg 1 a).setReg 2 b with fr := 0x45 }
  (t.reg 1, t.reg 2, t.fr)

theorem test_mov : move 0x3822000000000000#64 0 0xDEADBEEF = (0xDEADBEEF, 0xDEADBEEF, 0x45) := by decide
theorem test_cmp_order : move 0x3C22000000000000#64 5 3 = (5, 3, 0x05) := by decide
theorem test_cmp_overflow : move 0x3C22000000000000#64 1 0x80000000 = (1, 0x80000000, 0x40) := by decide
theorem test_sext : move 0x8422000000000000#64 0 0x12348001 = (0xFFFF8001, 0x12348001, 0x45) := by decide
theorem test_zext : move 0x8822000000000000#64 0 0x12348001 = (0x00008001, 0x12348001, 0x45) := by decide

/-- Section 2.4, `EXT_SRC_BITS = 8`. -/
theorem test_sext_8 : signExtended .bits8 0x12348001 = 1 ∧ signExtended .bits8 0x80 = 0xFFFFFF80 := by decide

/-- Scenario S6: absolute, whatever `R13` holds. -/
theorem test_ldr_absolute :
    (after ((paged 0x202D000000400000#64 [(0x40, 0xAABBCCDD)]).setReg 13 0x9999)).reg 1 = 0xAABBCCDD := by decide

/-- Table 2.5: misaligned, bytes 11 22 33 44 55 66 77 88 from 0x300. -/
theorem test_ldr_misaligned :
    (after ((paged 0x2022000000010000#64 [(0x300, 0x44332211), (0x304, 0x88776655)]).setReg 2 0x300)).reg 1
      = 0x55443322 := by decide

/-- Scenario S3 and R83. -/
theorem test_walk_translates :
    (after { at100 0x202D00000ABC0000#64 [(0x1000, 0x2001), (0x2000, 0x3001), (0x3ABC, 0x600DF00D)] with
      tpdr := 0x1000 }).reg 1 = 0x600DF00D := by decide

/-- Table 2.5. -/
theorem test_str_bytes :
    let t := after ((paged 0x242D000000440000#64).setReg 1 0x11223344)
    (Memory.read t.mem 0x44, Memory.read t.mem 0x45, Memory.read t.mem 0x46, Memory.read t.mem 0x47)
      = (0x44, 0x33, 0x22, 0x11) := by decide

theorem test_str_negative_offset :
    wordAt (after (((paged 0x2422FFFFFFFC0000#64).setReg 1 0xCAFEF00D).setReg 2 0x304)) 0x300 = 0xCAFEF00D := by decide

theorem test_push :
    let t := after { (paged 0x40A0000000000000#64).setReg 5 0xCAFEBABE with s0 := 0x8000 }
    (wordAt t 0x7FFC, t.s0) = (0xCAFEBABE, 0x7FFC) := by decide

/-- Table 2.5: a push that traps leaves `S0` alone. -/
theorem test_push_precise :
    let t := after { paged 0x40A0000000000000#64 [(0x208, 0x400)] with s0 := 0x400004, ivtr := 0x200 }
    (t.s0, t.ie2, t.i0, t.ie0) = (0x400004, 0x400004, 0x400, 0) := by decide

theorem test_pop :
    let t := after { paged 0x44C0000000000000#64 [(0x7FFC, 0xCAFEBABE)] with s0 := 0x7FFC }
    (t.reg 6, t.s0) = (0xCAFEBABE, 0x8000) := by decide

/-- Scenario S4 with the values of table 2.5. -/
theorem test_page_fault :
    let t := after { (at100 0x202D000000000000#64 [(0x208, 0x400)]).setReg 1 0x77 with
      tpdr := 0x1000, ivtr := 0x200, s0 := 0x8000, fr := 0x05 }
    (t.reg 1, t.i0, t.ie0, t.ie1, t.ie2, t.ie3, t.ie4, t.msr)
      = (0x77, 0x400, 0, 0x100, 0x8000, 0x05, 1, 0x80000001) := by decide

/-- Table 2.5: a user store to a kernel page. -/
theorem test_kernel_page_store :
    let t := after { (paged 0x242D000050000000#64 [(0x2014, 0x5401), (0x20C, 0x480)]).setReg 1 0x77 with ivtr := 0x200 }
    (t.i0, t.ie0, t.ie4, t.msr, wordAt t 0x5000) = (0x480, 1, 1, 0x80000001, 0) := by decide

/-- Table 2.5: the user load of a kernel page, with and without `CHECK_READS`. -/
theorem test_kernel_page_load :
    let s := { (paged 0x202D000050000000#64 [(0x2014, 0x5401), (0x5000, 0xC0DE), (0x20C, 0x480)]) with ivtr := 0x200 }
    ((after s).i0, (after s).ie0) = (0x480, 1) ∧
    ((after { s with cfg := { checkReads := false } }).reg 1, (after { s with msr := 0x80000001 }).reg 1)
      = (0xC0DE, 0xC0DE) := by decide

/-- Table 2.5: a frame outside memory. -/
theorem test_host_error :
    let t := after (paged 0x202D0000F0000000#64 [(0x203C, 0xFF0001)])
    (t.hostError, t.ie1, t.stepAnswer) = (true, 0, .hostError) := by decide

/-- `I0` after a branch at 0x100. -/
def branch (w : InstrWord) (fr : Byte) : Word := (after { at100 w with fr := fr }).i0

theorem test_beq : (branch 0x3000000000100000#64 0x02, branch 0x3000000000100000#64 0x00) = (0x110, 0x108) := by decide
theorem test_bne : (branch 0x3400FFFFFFF00000#64 0x00, branch 0x3400FFFFFFF00000#64 0x02) = (0xF0, 0x108) := by decide
theorem test_jmp : (after (at100 0x2800008000000000#64)).i0 = 0x2000 := by decide
theorem test_jal : ((after (at100 0x2C00008000000000#64)).reg 31, (after (at100 0x2C00008000000000#64)).i0)
    = (0x108, 0x2000) := by decide
theorem test_call :
    let t := after { paged 0x4800000100000000#64 with s0 := 0x8000 }
    (wordAt t 0x7FFC, t.s0, t.i0) = (0x108, 0x7FFC, 0x40) := by decide
theorem test_ret :
    let t := after { paged 0x4C00000000000000#64 [(0x7FFC, 0x108)] with s0 := 0x7FFC }
    (t.i0, t.s0) = (0x108, 0x8000) := by decide
theorem test_nop : after (at100 0x5400000000000000#64) = { at100 0x5400000000000000#64 with i0 := 0x108 } := by decide
theorem test_hlt :
    let t := after (at100 0x5800000000000000#64)
    (t.halted, t.i0, t.msr, t.stepAnswer, match step t with | .fault .halted => true | _ => false)
      = (true, 0x108, 1, .halted, true) := by decide

/-- Table 2.7. -/
theorem test_swi :
    let t := after { at100 0x8000000000080000#64 [(0x220, 0x300)] with ivtr := 0x200, s0 := 0x8000, fr := 0x44 }
    (t.i0, t.ie0, t.ie1, t.ie2, t.ie3, t.ie4, t.msr, t.s0, t.fr)
      = (0x300, 0, 0x100, 0x8000, 0x44, 1, 0x80000001, 0x8000, 0x44) := by decide
theorem test_swi_low_byte : (after { at100 0x8000000001FF0000#64 [(0x5FC, 0x340)] with ivtr := 0x200 }).i0 = 0x340 := by decide
theorem test_iret :
    let t := after { at100 0x5000000000000000#64 with
      ie0 := 9, ie1 := 0x108, ie2 := 0x8000, ie3 := 0xFF, ie4 := 1, msr := 0x80000001, s0 := 0x1234, fr := 0x02 }
    (t.i0, t.s0, t.fr, t.msr, t.ie0, t.ie3) = (0x108, 0x8000, 0x47, 1, 9, 0xFF) := by decide
theorem test_mfs_own_address :
    ((after (at100 0x8C20000000000000#64)).reg 1, (after (at100 0x8C20000000000000#64)).i0) = (0x100, 0x108) := by decide
theorem test_mfs_reserved :
    let t := after { (at100 0x8C8E000000000000#64 [(0x20C, 0x480)]).setReg 4 0x55 with ivtr := 0x200 }
    (t.i0, t.ie0, t.ie1, t.reg 4) = (0x480, 6, 0x100, 0x55) := by decide

/-- The special registers and `I0` after an `MTS` from `R1`. -/
def mtsOf (w : InstrWord) (v : Word) : State := after ((at100 w).setReg 1 v)

theorem test_mts_widths :
    ((mtsOf 0x9061000000000000#64 0xFFFFFFFF).fr, (mtsOf 0x90A1000000000000#64 0x1234).ie0,
      (mtsOf 0x9181000000000000#64 0x77).prr, (mtsOf 0x9141000000000000#64 0x1000).tpdr) = (0x47, 0x34, 0, 0x1000) := by
  decide
theorem test_mts_pc_and_mode :
    ((mtsOf 0x9001000000000000#64 0x400).i0, (mtsOf 0x91A1000000000000#64 0x80000001).msr) = (0x408, 0x80000001) := by
  decide

/-- `s` with port 0x03F8 and port 0x60 mapped and one answer ready. -/
def withPorts (s : State) : State := { s with cfg := { ioMapped := [0x3F8, 0x60] }, ioAnswers := [0xA5A5A5A5, 7] }

theorem test_out :
    let s := ((at100 0x9422000000000000#64).setReg 1 0x103F8).setReg 2 0x41
    ((after (withPorts s)).ioLog, (after s).ioLog, (after s).i0) = ([.write 0x3F8 0x41], [], 0x108) := by decide
theorem test_in :
    let s := ((at100 0x9822000000000000#64).setReg 1 0x60).setReg 2 0x99
    ((after s).reg 2, (after s).reg 1, (after (withPorts s)).reg 2, (after (withPorts s)).ioLog,
      (after (withPorts s)).ioAnswers) = (0, 0x60, 0xA5A5A5A5, [.read 0x60 0xA5A5A5A5], [7]) := by decide

/-- Scenario S2 and R259. -/
theorem test_divide_by_zero :
    let t := after { State.reset with
      i0 := 0x300, ivtr := 0x100, mem := poke [] [(0x304, 0x60221800), (0x100, 0x2000)] }
    (t.i0, t.ie0, t.ie1, t.ie4, t.msr, t.reg 1, t.fr) = (0x2000, 0, 0x300, 1, 0x80000001, 0, 0) := by decide

/-- Table 2.8. -/
theorem test_invalid_opcode :
    let t := after { at100 0x9C00000000000000#64 [(0x204, 0x440)] with ivtr := 0x200 }
    (t.i0, t.ie0, t.ie1, t.msr) = (0x440, 0, 0x100, 0x80000001) := by decide

/-- N1: the empty machine. -/
theorem test_empty_machine :
    let t := after State.reset
    (t.i0, t.ie1, t.msr, t.ie4, t.hostError) = (0, 0, 0x80000001, 1, false) := by decide

/-- N3: the high half of the fetch is out of range. -/
theorem test_fetch_last_bytes :
    (after { State.reset with i0 := 0xFFFC }) = { State.reset with i0 := 0xFFFC, hostError := true } := by decide

/-- The interface of the host: a word of the table placed after reset runs. -/
theorem test_with_fetch_word :
    (after (State.reset.withFetchWord 64 0x7020000000000000)).reg 1 = 1 := by decide

/-! ### The assembler (spec/30_encoding.md R125 to R134) -/

/-- A line of text, assembled with the default sentinel. -/
def asm (line : String) : Except AsmError InstrWord := assembleLine 0x0D line.toList

theorem test_asm_three_registers : asm "ADD R5, R6, R7" = .ok 0x04A6380000000000 := by decide
theorem test_asm_case_and_blanks : asm "  add r5 R6,r7 " = .ok 0x04A6380000000000 := by decide
theorem test_asm_absolute : asm "LDR R1, 0x40" = .ok 0x202D000000400000 := by decide
theorem test_asm_offset : asm "STR R1, R2, -4" = .ok 0x2422FFFFFFFC0000 := by decide
theorem test_asm_shift : asm "LSL R3, R1, 63" = .ok 0x186107E000000000 := by decide
theorem test_asm_branch : asm "BNE -16" = .ok 0x3400FFFFFFF00000 := by decide
theorem test_asm_special : (asm "MFS R1, IE1", asm "mts tpdr, r1") = (.ok 0x8C26000000000000, .ok 0x9141000000000000) := by decide
theorem test_asm_none : asm "HLT" = .ok 0x5800000000000000 := by decide
/-- N5. -/
theorem test_asm_errors :
    asm "ADD R1, R2" = .error .wrongArity ∧ asm "ADD R1, R2, R32" = .error .invalidRegister ∧
    asm "LSL R1, R2, 64" = .error .immediateRange ∧ asm "MOV R1, 5" = .error .invalidRegister ∧
    asm "MFS R1, R2" = .error .invalidRegister ∧ asm "LDR R1, R13, 0" = .error .invalidRegister ∧
    asm "FOO" = .error .unknownMnemonic := by decide
/-- R127, R128. -/
theorem test_asm_out_of_place :
    (asm "JMP S0", asm "MOV R1, S0", asm "SWI 0x100000000", asm "BEQ -2147483649")
      = (.error .invalidRegister, .error .invalidRegister, .error .immediateRange, .error .immediateRange) := by decide

/-- The order of errors is the model's choice (log 8): mnemonic, separators, number of operands, operands. -/
theorem test_asm_error_order :
    (asm "FOO R1,,R2", asm "ADD R1,,R99", asm "ADD R1, R99", asm "LSL R99, R1, 64", asm ", ADD")
      = (.error .unknownMnemonic, .error .malformedLine, .error .wrongArity, .error .invalidRegister,
         .error .malformedLine) := by decide

/-! ### Witnesses: for every statement with hypotheses, values that meet them all -/

/-- The state an instruction goes on in. -/
def ran (i : Instr) (s : State) : State :=
  match exec i s with
  | .next t => t
  | _ => s

/-- The instruction answers a next state. -/
def completes (i : Instr) (s : State) : Bool :=
  match exec i s with
  | .next _ => true
  | _ => false

/-- The step answers a next state. -/
def goesOn (s : State) : Bool :=
  match step s with
  | .next _ => true
  | _ => false

theorem exec_ran {i : Instr} {s : State} (h : completes i s = true) : exec i s = .next (ran i s) := by
  unfold completes at h
  unfold ran
  split at h
  · rename_i h'
    rw [h']
  · cases h

theorem step_after {s : State} (h : goesOn s = true) : step s = .next (after s) := by
  unfold goesOn at h
  unfold after
  split at h
  · rename_i h'
    rw [h']
  · cases h

/-- The state of the witnesses: identity mapping to the last word of memory, page 5 kernel-only, PDE 1 kernel-only and
mapping the same page table, user mode. -/
def mapped : State := paged 0 [(0x2014, 0x5401), (0x1004, 0x2401)]

/-- The opcode clauses: AddWritesSumAndFlags, SubWritesDifferenceAndFlags, AndOrXorWriteBitwiseResult,
MulWritesLowProductAndFlags, NotNegWriteResult, IncDecWriteResult, LslAslShiftLeft, LsrShiftsRight, AsrShiftsWithSign. -/
theorem witness_opcodes_r :
    [0x0461100000000000#64, 0x0861100000000000#64, 0x0C61100000000000#64, 0x1061100000000000#64, 0x1461100000000000#64,
      0x186103E000000000#64, 0x1C61042000000000#64, 0x5C61100000000000#64, 0x6861000000000000#64, 0x6C61000000000000#64,
      0x7060000000000000#64, 0x7460000000000000#64, 0x7861008000000000#64, 0x7C6107E000000000#64].map
        (fun w : InstrWord => w.extractLsb' 58 6)
      = [0x01#6, 0x02#6, 0x03#6, 0x04#6, 0x05#6, 0x06#6, 0x07#6, 0x17#6, 0x1A#6, 0x1B#6, 0x1C#6, 0x1D#6, 0x1E#6, 0x1F#6] := by
  decide

/-- The opcode clauses: BeqBneBranchOnZero, MovCopiesRegister, CmpWritesFlagsOnly, SwiEntersTrap, SextZextExtendLowBits,
MfsReadsSpecial, MtsWritesSpecial, OutWritesPort, InReadsPort, JmpJalTransfer, IretRestoresContext, NopHltAdvance. -/
theorem witness_opcodes_ij :
    [0x3000000000100000#64, 0x3400FFFFFFF00000#64, 0x3822000000000000#64, 0x3C22000000000000#64, 0x8000000001FF0000#64,
      0x8422000000000000#64, 0x8822000000000000#64, 0x8C26000000000000#64, 0x90C1000000000000#64, 0x9422000000000000#64,
      0x9822000000000000#64, 0x2800008000000000#64, 0x2C00008000000000#64, 0x5000000000000000#64, 0x5400000000000000#64,
      0x5800000000000000#64].map (fun w : InstrWord => w.extractLsb' 58 6)
      = [0x0C#6, 0x0D#6, 0x0E#6, 0x0F#6, 0x20#6, 0x21#6, 0x22#6, 0x23#6, 0x24#6, 0x25#6, 0x26#6, 0x0A#6, 0x0B#6, 0x14#6,
        0x15#6, 0x16#6] := by
  decide

/-- DivWritesQuotient, ModWritesRemainder: both readings, on the corner of the signed one. -/
theorem witness_DivModWrite :
    let s := (State.reset.setReg 1 0x80000000).setReg 2 0xFFFFFFFF
    (s.reg 2 ≠ 0#32 ∧ s.cfg.divSigned = false) ∧
    ({ s with cfg := { divSigned := true } }.reg 2 ≠ 0#32 ∧ { s with cfg := { divSigned := true } }.cfg.divSigned = true) := by
  decide

/-- DivModByZeroTrap. -/
theorem witness_DivModByZeroTrap : State.reset.reg 2 = 0#32 ∧ State.reset.vectorInMemory 0 := by decide

/-- SextZextExtendLowBits: both widths. -/
theorem witness_SextZextExtendLowBits :
    State.reset.cfg.extSrc = .bits16 ∧ (State.resetWith { extSrc := .bits8 }).cfg.extSrc = .bits8 := by decide

/-- LdrLoadsMappedWord: absolute to the last word of memory, base plus offset, and a kernel page with `CHECK_READS`
off. -/
theorem witness_LdrLoadsMappedWord :
    (mapped.Maps (if (13 : RegNum) = mapped.cfg.absSentinel then 0xFFFC else mapped.reg 13 + 0xFFFC)
        0x2001 0xF001 0xFFFC ∧
      (mapped.cfg.checkReads = false ∨ mapped.MayAccess 0x2001 0xF001) ∧ (0xFFFC#32).toNat + 4 ≤ mapped.cfg.memSize) ∧
    (mapped.Maps (if (2 : RegNum) = mapped.cfg.absSentinel then 1 else mapped.reg 2 + 1) 0x2001 0x0001 0x0001 ∧
      mapped.MayAccess 0x2001 0x0001) ∧
    (mapped.Maps 0x5000 0x2001 0x5401 0x5000 ∧ { mapped with cfg := { checkReads := false } }.cfg.checkReads = false ∧
      { mapped with cfg := { checkReads := false } }.Maps 0x5000 0x2001 0x5401 0x5000) := by decide

/-- StrStoresMappedWord: user mode, and kernel mode on a kernel page. -/
theorem witness_StrStoresMappedWord :
    (mapped.Maps (if (13 : RegNum) = mapped.cfg.absSentinel then 0xFFFC else mapped.reg 13 + 0xFFFC)
        0x2001 0xF001 0xFFFC ∧ mapped.MayAccess 0x2001 0xF001 ∧ (0xFFFC#32).toNat + 4 ≤ mapped.cfg.memSize) ∧
    ({ mapped with msr := 0x80000001 }.Maps (if (2 : RegNum) = mapped.cfg.absSentinel then 0x5000 else mapped.reg 2 + 0x5000)
        0x2001 0x5401 0x5000 ∧ { mapped with msr := 0x80000001 }.MayAccess 0x2001 0x5401) := by decide

/-- A stack whose next slot is the last word of memory. -/
def stacked : State := { mapped with s0 := 0x10000 }

/-- PushStoresBelowStackPointer, CallPushesReturnAddress. -/
theorem witness_PushCall :
    stacked.Maps (stacked.s0 - 4#32) 0x2001 0xF001 0xFFFC ∧ stacked.MayAccess 0x2001 0xF001 ∧
    (0xFFFC#32).toNat + 4 ≤ stacked.cfg.memSize := by decide

/-- PopLoadsAndRaisesStackPointer, RetPopsProgramCounter. -/
theorem witness_PopRet :
    { mapped with s0 := 0xFFFC }.Maps { mapped with s0 := 0xFFFC }.s0 0x2001 0xF001 0xFFFC ∧
    ({ mapped with s0 := 0xFFFC }.cfg.checkReads = false ∨ { mapped with s0 := 0xFFFC }.MayAccess 0x2001 0xF001) ∧
    (0xFFFC#32).toNat + 4 ≤ { mapped with s0 := 0xFFFC }.cfg.memSize := by decide

/-- MissingPageTraps: the page directory entry missing, and the page table entry missing; a push wraps to the first. -/
theorem witness_MissingPageTraps :
    (dataAddressOf (.ldr 1 13 0x800000) mapped = some 0x800000 ∧ mapped.Missing 0x800000) ∧
    (dataAddressOf (.str 1 13 0x10000) mapped = some 0x10000 ∧ mapped.Missing 0x10000) ∧
    (dataAddressOf (.push 1) mapped = some 0xFFFFFFFC ∧ mapped.Missing 0xFFFFFFFC) :=
  ⟨⟨by decide, 0, by decide, .inl (by decide)⟩, ⟨by decide, 0x2001, by decide, .inr ⟨by decide, 0, by decide, by decide⟩⟩,
    ⟨by decide, 0, by decide, .inl (by decide)⟩⟩

/-- KernelPageDeniedToUser: a store through a kernel-only page table entry, a load through a kernel-only page
directory entry. -/
theorem witness_KernelPageDeniedToUser :
    (dataAddressOf (.str 1 13 0x5000) mapped = some 0x5000 ∧ mapped.Maps 0x5000 0x2001 0x5401 0x5000 ∧
      mapped.msr[31] = false ∧ (0x5401#32)[10] = true ∧ storesData (.str 1 13 0x5000) = true) ∧
    (dataAddressOf (.ldr 1 13 0x403000) mapped = some 0x403000 ∧ mapped.Maps 0x403000 0x2401 0x3001 0x3000 ∧
      mapped.msr[31] = false ∧ (0x2401#32)[10] = true ∧ mapped.cfg.checkReads = true) := by decide

/-- OutOfRangeDataStops: the page directory outside memory, the page table outside memory, the last byte of the data
outside memory. -/
theorem witness_OutOfRangeDataStops :
    (dataAddressOf (.pop 1) { mapped with tpdr := 0x10000 } = some 0 ∧ { mapped with tpdr := 0x10000 }.WalkLeavesMemory 0) ∧
    (dataAddressOf .ret { mapped with mem := poke [] [(0x1000, 0x10001)] } = some 0 ∧
      { mapped with mem := poke [] [(0x1000, 0x10001)] }.WalkLeavesMemory 0) ∧
    (dataAddressOf (.str 1 13 0xFFFD) mapped = some 0xFFFD ∧ ∃ pde pte pa, mapped.Maps 0xFFFD pde pte pa ∧
      mapped.MayAccess pde pte ∧ mapped.cfg.memSize < pa.toNat + 4) :=
  ⟨⟨by decide, .inl (by decide)⟩, ⟨by decide, .inr ⟨0x10001, by decide, by decide, by decide⟩⟩,
    ⟨by decide, 0x2001, 0xF001, 0xFFFD, by decide, by decide, by decide⟩⟩

/-- NopHltAdvance: the clause about a machine with no host error. -/
theorem witness_NopHltAdvance : State.reset.hostError = false := by decide

/-- SwiEntersTrap: the last vector ends with memory. -/
theorem witness_SwiEntersTrap :
    { State.reset with ivtr := 0xFC00 }.vectorInMemory ((0xFFFFFFFF#32).extractLsb' 0 8) ∧
    ¬ { State.reset with ivtr := 0xFC01 }.vectorInMemory ((0xFFFFFFFF#32).extractLsb' 0 8) := by decide

/-- MfsReadsSpecial, MtsWritesSpecial: the first and the last number, and one number beyond. -/
theorem witness_MfsMts :
    (specialsInOrder State.reset)[(0 : RegNum).toNat]? = some 0 ∧
    (specialsInOrder State.reset)[(13 : RegNum).toNat]? = some 1 ∧
    (specialsInOrder State.reset)[(14 : RegNum).toNat]? = none := by decide

/-- ReservedSpecialTraps: both ends. -/
theorem witness_ReservedSpecialTraps :
    14 ≤ (14 : RegNum).toNat ∧ 14 ≤ (31 : RegNum).toNat ∧ State.reset.vectorInMemory 3 := by decide

/-- InReadsPort, OutWritesPort: a mapped and an unmapped port, an answer ready. -/
theorem witness_Ports :
    (State.reset.reg 1).extractLsb' 0 16 ∉ State.reset.cfg.ioMapped ∧
    ((withPorts (State.reset.setReg 1 0x10060)).reg 1).extractLsb' 0 16
      ∈ (withPorts (State.reset.setReg 1 0x10060)).cfg.ioMapped ∧
    0xA5A5A5A5 ∈ (withPorts State.reset).ioAnswers.head? := by decide

/-- AluFlagsMatchResult: an instruction that completes, and a division that traps. -/
theorem witness_AluFlagsMatchResult :
    (aluDest (.asr 3 1 63) = some 3 ∧ exec (.asr 3 1 63) State.reset = .next (ran (.asr 3 1 63) State.reset)) ∧
    (aluDest (.div 3 1 2) = some 3 ∧ exec (.div 3 1 2) State.reset = .next (ran (.div 3 1 2) State.reset)) :=
  ⟨⟨rfl, exec_ran (by decide)⟩, ⟨rfl, exec_ran (by decide)⟩⟩

/-- OverflowFlagMeansSignedOverflow. -/
theorem witness_OverflowFlagMeansSignedOverflow :
    let s := (State.reset.setReg 1 0x7FFFFFFF).setReg 2 1
    exec (.add 3 1 2) s = .next (ran (.add 3 1 2) s) ∧ exec (.sub 3 1 2) s = .next (ran (.sub 3 1 2) s) ∧
    exec (.cmp 2 1) s = .next (ran (.cmp 2 1) s) :=
  ⟨exec_ran (by decide), exec_ran (by decide), exec_ran (by decide)⟩

/-- DivModReconstructDividend. -/
theorem witness_DivModReconstructDividend :
    let s := (State.reset.setReg 1 17).setReg 2 5
    s.cfg.divSigned = false ∧ s.reg 2 ≠ 0#32 ∧ exec (.div 3 1 2) s = .next (ran (.div 3 1 2) s) ∧
    exec (.mod 4 1 2) s = .next (ran (.mod 4 1 2) s) :=
  ⟨by decide, by decide, exec_ran (by decide), exec_ran (by decide)⟩

/-- PushThenPopCopies. -/
theorem witness_PushThenPopCopies :
    Memory.wf stacked.mem = true ∧ stacked.Maps (stacked.s0 - 4#32) 0x2001 0xF001 0xFFFC ∧
    stacked.MayAccess 0x2001 0xF001 ∧ (0xFFFC#32).toNat + 4 ≤ stacked.cfg.memSize ∧
    exec (.push 5) stacked = .next (ran (.push 5) stacked) ∧
    (ran (.push 5) stacked).Maps (stacked.s0 - 4#32) 0x2001 0xF001 0xFFFC :=
  ⟨by decide, by decide, by decide, by decide, exec_ran (by decide), by decide⟩

/-- CallThenRetReturns. -/
theorem witness_CallThenRetReturns :
    Memory.wf stacked.mem = true ∧ stacked.Maps (stacked.s0 - 4#32) 0x2001 0xF001 0xFFFC ∧
    stacked.MayAccess 0x2001 0xF001 ∧ (0xFFFC#32).toNat + 4 ≤ stacked.cfg.memSize ∧
    exec (.call 0x40) stacked = .next (ran (.call 0x40) stacked) ∧
    (ran (.call 0x40) stacked).Maps (stacked.s0 - 4#32) 0x2001 0xF001 0xFFFC :=
  ⟨by decide, by decide, by decide, by decide, exec_ran (by decide), by decide⟩

/-- LoadSeesStoreThroughAnyAlias: virtual 0x3000 and its alias 0x403000, in kernel mode. -/
theorem witness_LoadSeesStoreThroughAnyAlias :
    let s := { mapped with msr := 0x80000001 }
    Memory.wf s.mem = true ∧ s.Maps 0x3000 0x2001 0x3001 0x3000 ∧ s.MayAccess 0x2001 0x3001 ∧
    (0x3000#32).toNat + 4 ≤ s.cfg.memSize ∧ s.memWrite 0x3000 7 = .done (Memory.writeWord s.mem 0x3000 7) ∧
    (s.setMem (Memory.writeWord s.mem 0x3000 7)).Maps 0x403000 0x2401 0x3001 0x3000 ∧ s.MayAccess 0x2401 0x3001 := by
  decide

/-- TrapThenReturnRestores: the handler's first state. -/
theorem witness_TrapThenReturnRestores :
    let s := { State.reset with fr := 0x47, s0 := 0x8000, i0 := 0x100 }
    let u := s.trigger 3 1
    s.reservedFlagsZero ∧ s.vectorInMemory 3 ∧ u.ie1 = (s.trigger 3 1).ie1 ∧ u.ie2 = (s.trigger 3 1).ie2 ∧
    u.ie3 = (s.trigger 3 1).ie3 ∧ u.ie4 = (s.trigger 3 1).ie4 := by decide

/-- StepRunsDecodedInstruction: the raw fetch of the last eight bytes of memory. -/
theorem witness_StepRunsDecodedInstruction_raw :
    let s := { State.reset with i0 := 0xFFF8, mem := poke [] [(0xFFFC, 0x54000000)] }
    s.running ∧ s.cfg.fetchTranslated = false ∧ s.fetchInMemory ∧ decode s.wordAtPc = .ok .nop := by decide

/-- StepRunsDecodedInstruction: the translated fetch. -/
theorem witness_StepRunsDecodedInstruction_translated :
    let s := { paged 0x5400000000000000#64 with cfg := { fetchTranslated := true } }
    s.running ∧ s.cfg.fetchTranslated = true ∧ s.memRead s.i0 = .done 0 ∧ s.memRead (s.i0 + 4#32) = .done 0x54000000 ∧
    decode (0x54000000#32 ++ 0#32) = .ok .nop := by decide

/-- IllegalOpcodeTraps: opcode 0, the first and the last beyond the table. -/
theorem witness_IllegalOpcodeTraps :
    (State.reset.running ∧ State.reset.cfg.fetchTranslated = false ∧ State.reset.fetchInMemory ∧
      State.reset.wordAtPc.extractLsb' 58 6 = 0#6) ∧
    0x27 ≤ ((at100 0x9C00000000000000#64).wordAtPc.extractLsb' 58 6).toNat ∧
    0x27 ≤ ((at100 0xFFFFFFFFFFFFFFFF#64).wordAtPc.extractLsb' 58 6).toNat := by decide

/-- FetchOutOfRangeStops: only the high half outside. -/
theorem witness_FetchOutOfRangeStops :
    let s := { State.reset with i0 := 0xFFF9 }
    s.running ∧ s.cfg.fetchTranslated = false ∧ ¬ s.fetchInMemory := by decide

/-- TerminalStatesAndHostError: both flags, and a step that sets `host_error`. -/
theorem witness_TerminalStatesAndHostError :
    let s := { State.reset with i0 := 0xFFF9 }
    { State.reset with halted := true }.halted = true ∧ { State.reset with hostError := true }.hostError = true ∧
    step s = .next (after s) ∧ (after s).hostError = true :=
  ⟨rfl, rfl, step_after (by decide), by decide⟩

/-- AdvanceByEightUnlessTransfer: `MTS` to a register that is not `I0`. -/
theorem witness_AdvanceByEightUnlessTransfer :
    setsPc (.mts 13 1) = false ∧ exec (.mts 13 1) State.reset = .next (ran (.mts 13 1) State.reset) :=
  ⟨by decide, exec_ran (by decide)⟩

/-- OnlyStoresWriteMemory: a step that stores. -/
theorem witness_OnlyStoresWriteMemory :
    let s := (paged 0x242D000000440000#64).setReg 1 0x11223344
    step s = .next (after s) ∧ (after s).mem ≠ s.mem :=
  ⟨step_after (by decide), by decide⟩

/-- OnlyMtsWritesTableBases. -/
theorem witness_OnlyMtsWritesTableBases :
    exec .iret State.reset = .next (ran .iret State.reset) ∧ ∀ spec rs, Instr.iret ≠ .mts spec rs :=
  ⟨exec_ran (by decide), by simp⟩

/-- StepKeepsRevisionAndParameters: a write of `PRR`. -/
theorem witness_StepKeepsRevisionAndParameters :
    step (at100 0x9181000000000000#64) = .next (after (at100 0x9181000000000000#64)) := step_after (by decide)

/-- KernelModeEntryPoints: a trap entry, an `IRET` with kernel mode saved, a write of `MSR`. -/
theorem witness_KernelModeEntryPoints :
    let a := State.reset
    let b := { at100 0x5000000000000000#64 with ie4 := 0x80000000 }
    let c := (at100 0x91A1000000000000#64).setReg 1 0x80000001
    (step a = .next (after a) ∧ a.msr[31] = false ∧ (after a).msr[31] = true) ∧
    (step b = .next (after b) ∧ b.msr[31] = false ∧ (after b).msr[31] = true) ∧
    (step c = .next (after c) ∧ c.msr[31] = false ∧ (after c).msr[31] = true) :=
  ⟨⟨step_after (by decide), by decide, by decide⟩, ⟨step_after (by decide), by decide, by decide⟩,
    ⟨step_after (by decide), by decide, by decide⟩⟩

/-- StepKeepsInvariant: a step that stores. -/
theorem witness_StepKeepsInvariant :
    let s := (paged 0x242D000000440000#64).setReg 1 0x11223344
    s.Inv ∧ step s = .next (after s) := ⟨by decide, step_after (by decide)⟩

/-- LoadImagePlacesBytes: an image up to the last byte, and one byte more. -/
theorem witness_LoadImagePlacesBytes :
    Memory.wf State.reset.mem = true ∧ 0xFFFE + [1#8, 2#8].length ≤ State.reset.cfg.memSize ∧
    State.reset.cfg.memSize < 0xFFFF + [1#8, 2#8].length := by decide

/-- PlacedWordRunsNext. -/
theorem witness_PlacedWordRunsNext :
    State.reset.running ∧ State.reset.cfg.fetchTranslated = false ∧ State.reset.fetchInMemory ∧
    Memory.wf State.reset.mem = true ∧ decodeTableWord 64 0x7020000000000000 = some (.inc 1) := by decide

/-- RecordRoundTrip: a well-formed record, an ill-formed one, a word with reserved bits set. -/
theorem witness_RecordRoundTrip :
    (Record.r 0x1F 31 31 31 63 255).wellFormed = true ∧ (Record.i 0x08 1 0x2D 0).wellFormed = false ∧
    Format.ofOpcode ((0x5400000003FFFFFF#64).extractLsb' 58 6).toNat = some .j ∧
    decodeRecord 0x5400000003FFFFFF#64 = .ok (.j 0x15 0) := by decide

/-- IgnoredBitsDoNotMatter. -/
theorem witness_IgnoredBitsDoNotMatter :
    decode 0x04A6380000000000#64 = .ok (.add 5 6 7) ∧
    0x04A6380000000000#64 &&& usedBits (.add 5 6 7) = 0x04A63FFFFFFFFFFF#64 &&& usedBits (.add 5 6 7) := by decide

/-- AssembledLineDecodes: the last special register. -/
theorem witness_AssembledLineDecodes :
    assembleLine 0x0D "MTS MSR, R1".toList = .ok 0x91A1000000000000 ∧
    parseLine 0x0D "MTS MSR, R1".toList = .ok (.mts 13 1) := by decide

end Sys2Proof.Tests
end

section
/-! SUPPORT. The proofs about the state (spec/10_state.md): what a step keeps, said once for all 38 instructions and the
trap entry; the three ends of a step, derived from it; and the obligations O45, O48, O49 and O51 to O53, each a short
case analysis of those. -/

namespace Sys2Proof.Machine

/-! ### The frame of a step

A trap entry, and every completed instruction but `MTS`, writes at most the general registers, `I0`, `S0`, `IE0` to
`IE4`, `MSR`, the flags through their mask, one word of memory, `halted` and the port bus. This frame is closed
under the operations instructions are built from, so that it is read off each instruction's definition. -/

/-- What a step from `s` to `t` keeps that neither ran a `MTS` nor stopped the machine. -/
structure Routine (s t : State) : Prop where
  s1 : t.s1 = s.s1
  ivtr : t.ivtr = s.ivtr
  tpdr : t.tpdr = s.tpdr
  tsp : t.tsp = s.tsp
  prr : t.prr = s.prr
  cfg : t.cfg = s.cfg
  hostError : t.hostError = s.hostError
  /-- `FR` is kept or written through its mask (R28). -/
  fr : t.fr = s.fr ∨ ∃ v, t.fr = v &&& flagMask
  /-- Memory is kept or one word inside it is stored (R66, R67). -/
  mem : t.mem = s.mem ∨ ∃ (pa : Nat) (v : Word), pa + 4 ≤ s.cfg.memSize ∧ t.mem = Memory.writeWord s.mem pa v

theorem Routine.refl (s : State) : Routine s s := ⟨rfl, rfl, rfl, rfl, rfl, rfl, rfl, .inl rfl, .inl rfl⟩

section closure
variable {s t : State}

theorem Routine.setReg (h : Routine s t) (k : RegNum) (v : Word) : Routine s (t.setReg k v) := { h with }

theorem Routine.setPc (h : Routine s t) (v : Word) : Routine s (t.setPc v) := { h with }

theorem Routine.setS0 (h : Routine s t) (v : Word) : Routine s (t.setS0 v) := { h with }

theorem Routine.advance (h : Routine s t) : Routine s t.advance := { h with }

theorem Routine.halt (h : Routine s t) : Routine s { t with halted := true } := { h with }

theorem Routine.setFlags (h : Routine s t) (r : Word) (c v : Bool) : Routine s (t.setFlags r c v) :=
  { h with fr := .inr ⟨_, rfl⟩ }

theorem Routine.trapReturn (h : Routine s t) : Routine s t.trapReturn := { h with fr := .inr ⟨_, rfl⟩ }

theorem Routine.ioWrite (h : Routine s t) (p : Port) (v : Word) : Routine s (t.ioWrite p v) := by
  by_cases hp : p ∈ t.cfg.ioMapped
  · obtain ⟨-, -, hw⟩ := State.io_mapped hp v
    rw [hw]
    exact { h with }
  · obtain ⟨-, -, hw⟩ := State.io_unmapped hp v
    rwa [hw]

theorem Routine.ioReadDone (h : Routine s t) (p : Port) : Routine s (t.ioReadDone p) := by
  by_cases hp : p ∈ t.cfg.ioMapped
  · obtain ⟨-, hr, -⟩ := State.io_mapped hp 0
    rw [hr]
    exact { h with }
  · obtain ⟨-, hr, -⟩ := State.io_unmapped hp 0
    rwa [hr]

/-- The common end of the ALU instructions (R150). -/
theorem Routine.writeResult (h : Routine s t) (rd : RegNum) (r : Word) (c v : Bool) :
    Routine s (t.writeResult rd r c v) :=
  ((h.setReg rd r).setFlags r c v).advance

/-- The trap entry writes `I0`, `MSR` and the registers that save the context (R250, R251). -/
theorem Routine.of_trapTaken {n ec : Byte} (h : TrapTaken s t n ec) : Routine s t := by
  obtain ⟨_, -, rfl⟩ := h
  exact { Routine.refl s with }

/-- A store that completed has written one word inside physical memory (R81). -/
theorem Routine.store {va v : Word} {m : Memory} (h : s.memWrite va v = .done m) : Routine s (s.setMem m) := by
  rcases s.memWrite_cases va v with ⟨_, _, pa, -, -, hpa, hw⟩ | hw | hw | hw <;> rw [hw] at h <;> cases h
  exact { Routine.refl s with mem := .inr ⟨pa.toNat, v, hpa, rfl⟩ }

end closure

/-! ### Everything an instruction and a step can do -/

/-- How a step from `s` ends; `ran` is the instruction it ran, if it came to run one. -/
inductive StepEnd (ran : Option Instr) (s : State) : State → Prop where
  | routine {t : State} (h : Routine s t) : StepEnd ran s t
  | special {spec rs : RegNum} {r : SpecialReg} (h : ran = some (.mts spec rs)) (hr : specialOf spec = some r) :
      StepEnd ran s (s.writeSpecial r (s.reg rs)).advance
  | stop {t : State} (h : HostStopped s t) : StepEnd ran s t

/-- A trap entry is taken, or its vector is outside memory and the machine stops (R250, R253). -/
theorem StepEnd.trigger (ran : Option Instr) (s : State) (n ec : Byte) : StepEnd ran s (s.trigger n ec) := by
  rcases s.trigger_cases n ec with h | ⟨-, h⟩
  · exact .routine (.of_trapTaken h)
  · exact .stop h

/-- An instruction that made an access ends as its own writes do, or by the trap or the stop. -/
theorem StepEnd.conclude {α : Type} {ran : Option Instr} {s : State} {x : Access α} {k : α → State}
    (h : ∀ a, x = .done a → StepEnd ran s (k a)) : StepEnd ran s (s.conclude x k) := by
  rcases State.conclude_ends (rfl : s.conclude x k = _) with ⟨a, hx, he⟩ | ⟨_, _, ht⟩ | hs
  · rw [he]
    exact h a hx
  · exact .routine (.of_trapTaken ht)
  · exact .stop hs

/-- The special-register access of `MFS` and `MTS` completes for the register the number names (R226, R228). -/
theorem specialOf_of_specialAccess {n : RegNum} {r : SpecialReg} (h : specialAccess n = .done r) :
    specialOf n = some r := by
  unfold specialAccess at h
  split at h <;> cases h
  assumption

/-- Every instruction answers a next state, and ends in one of the three ways. -/
theorem exec_ends (i : Instr) (s : State) : ∃ t, exec i s = .next t ∧ StepEnd (some i) s t := by
  have h := Routine.refl s
  cases i with
  | add | sub | and | or | xor | mul | not | neg | inc | dec | lsl | lsr | asl | asr =>
    exact ⟨_, rfl, .routine (h.writeResult ..)⟩
  | div | mod => exact ⟨_, rfl, .conclude fun _ _ => .routine (h.writeResult ..)⟩
  | mov | sext | zext => exact ⟨_, rfl, .routine (h.setReg ..).advance⟩
  | cmp => exact ⟨_, rfl, .routine (h.setFlags ..).advance⟩
  | ldr => exact ⟨_, rfl, .conclude fun _ _ => .routine (h.setReg ..).advance⟩
  | pop => exact ⟨_, rfl, .conclude fun _ _ => .routine ((h.setReg ..).setS0 _).advance⟩
  | ret => exact ⟨_, rfl, .conclude fun _ _ => .routine ((h.setS0 _).setPc _)⟩
  | str => exact ⟨_, rfl, .conclude fun _ hw => .routine (Routine.store hw).advance⟩
  | push => exact ⟨_, rfl, .conclude fun _ hw => .routine ((Routine.store hw).setS0 _).advance⟩
  | call => exact ⟨_, rfl, .conclude fun _ hw => .routine (((Routine.store hw).setS0 _).setPc _)⟩
  | beq | bne =>
    refine ⟨_, rfl, .routine ?_⟩
    split
    · exact h.setPc _
    · exact h.advance
  | jmp => exact ⟨_, rfl, .routine (h.setPc _)⟩
  | jal => exact ⟨_, rfl, .routine ((h.setReg ..).setPc _)⟩
  | nop => exact ⟨_, rfl, .routine h.advance⟩
  | hlt => exact ⟨_, rfl, .routine h.halt.advance⟩
  | swi => exact ⟨_, rfl, .trigger ..⟩
  | iret => exact ⟨_, rfl, .routine h.trapReturn⟩
  | mfs => exact ⟨_, rfl, .conclude fun _ _ => .routine (h.setReg ..).advance⟩
  | mts => exact ⟨_, rfl, .conclude fun _ hr => .special rfl (specialOf_of_specialAccess hr)⟩
  | out => exact ⟨_, rfl, .routine (h.ioWrite ..).advance⟩
  | inp => exact ⟨_, rfl, .routine ((h.ioReadDone _).setReg ..).advance⟩

theorem StepEnd.of_exec {i : Instr} {s t : State} (h : exec i s = .next t) : StepEnd (some i) s t := by
  obtain ⟨u, hu, he⟩ := exec_ends i s
  rw [h] at hu
  cases hu
  exact he

/-- A step that answers a next state started from a running machine and ended in one of the three ways. -/
theorem StepEnd.of_step {s t : State} (h : step s = .next t) : s.running ∧ ∃ ran, StepEnd ran s t := by
  obtain ⟨hrun, ⟨_, i, -, -, he⟩ | ⟨_, _, ht⟩ | hs⟩ := step_cases h
  · exact ⟨hrun, some i, .of_exec he⟩
  · exact ⟨hrun, none, .routine (.of_trapTaken ht)⟩
  · exact ⟨hrun, none, .stop hs⟩

/-! ### The invariant -/

/-- A state with the memory and the parameters of a sound one, and clear reserved flags, is sound. -/
theorem State.Inv.of_mem_eq {s t : State} (hs : s.Inv) (hm : t.mem = s.mem) (hc : t.cfg = s.cfg)
    (hf : t.reservedFlagsZero) : t.Inv := by
  refine ⟨?_, hf⟩
  rw [State.memorySound, hm, hc]
  exact hs.1

theorem Routine.keeps_reservedFlagsZero {s t : State} (h : Routine s t) (hs : s.reservedFlagsZero) :
    t.reservedFlagsZero := by
  rcases h.fr with hf | ⟨v, hf⟩ <;> rw [State.reservedFlagsZero, hf]
  · exact hs
  · exact masked_reserved_zero v

theorem Routine.keeps_memorySound {s t : State} (h : Routine s t) (hs : s.memorySound) : t.memorySound := by
  obtain ⟨hwf, hin⟩ := hs
  rcases h.mem with hm | ⟨pa, v, hpa, hm⟩ <;> rw [State.memorySound, hm, h.cfg]
  · exact ⟨hwf, hin⟩
  · exact ⟨Memory.writeWord_wf hwf pa v, Memory.writeWord_within hin hpa v⟩

/-- Settles O51: the frame of a step keeps memory sound and the reserved flags clear, a special write does not touch
memory and masks `FR`, and the stop writes neither. -/
theorem stepKeepsInvariant : Obligations.StepKeepsInvariant := by
  intro s t hs h
  obtain ⟨-, ran, he⟩ := StepEnd.of_step h
  cases he with
  | routine hr => exact ⟨hr.keeps_memorySound hs.1, hr.keeps_reservedFlagsZero hs.2⟩
  | @special _ rs r =>
    obtain ⟨hm, hc, -, -, -, hf⟩ := s.writeSpecial_keeps r (s.reg rs)
    exact hs.of_mem_eq hm hc (hf hs.2)
  | stop hstop =>
    subst hstop
    exact hs.of_mem_eq rfl rfl hs.2

/-! ### The terminal flags, the table bases, the revision and the parameters -/

/-- No step runs once a terminal flag is set (R52, R140). -/
theorem step_ne_next_of_terminal {s : State} (hs : s.halted = true ∨ s.hostError = true) (t : State) :
    step s ≠ .next t := by
  intro h
  obtain ⟨⟨hhalt, herr⟩, -⟩ := step_cases h
  simp [hhalt, herr] at hs

/-- Settles O45: a running machine has `host_error` clear, and of the three ends only the stop sets it. -/
theorem terminalStatesAndHostError : Obligations.TerminalStatesAndHostError := by
  refine ⟨fun s t hs => step_ne_next_of_terminal hs t, fun s t h herr => ?_⟩
  obtain ⟨⟨-, hclear⟩, ran, he⟩ := StepEnd.of_step h
  have hne : t.hostError ≠ s.hostError := by simp [herr, hclear]
  cases he with
  | routine hr => exact absurd hr.hostError hne
  | @special _ rs r =>
    obtain ⟨-, -, -, hkept, -, -⟩ := s.writeSpecial_keeps r (s.reg rs)
    exact absurd hkept hne
  | stop hstop => exact hstop

/-- Settles O48: the frame of a step holds the four registers, and the stop does not write them. -/
theorem onlyMtsWritesTableBases : Obligations.OnlyMtsWritesTableBases := by
  intro i s t h hi
  cases StepEnd.of_exec h with
  | routine hr => exact ⟨hr.s1, hr.ivtr, hr.tpdr, hr.tsp⟩
  | special hran => exact absurd (Option.some.inj hran) (hi _ _)
  | stop hstop =>
    subst hstop
    exact ⟨rfl, rfl, rfl, rfl⟩

/-- Settles O49: none of the three ends writes `PRR` or a parameter; a `MTS` to `PRR` is dropped (R46). -/
theorem stepKeepsRevisionAndParameters : Obligations.StepKeepsRevisionAndParameters := by
  intro s t h
  obtain ⟨-, ran, he⟩ := StepEnd.of_step h
  cases he with
  | routine hr => exact ⟨hr.prr, hr.cfg⟩
  | @special _ rs r =>
    obtain ⟨-, hc, hp, -, -, -⟩ := s.writeSpecial_keeps r (s.reg rs)
    exact ⟨hp, hc⟩
  | stop hstop =>
    subst hstop
    exact ⟨rfl, rfl⟩

/-! ### Reset -/

/-- Empty memory is canonical and below every bound, and `FR` is 0. -/
theorem State.resetWith_inv (c : Config) : (State.resetWith c).Inv := ⟨⟨rfl, rfl⟩, BitVec.zero_and⟩

/-- Settles O52: the first state is the reset under the default parameters. -/
theorem resetHasInvariant : Obligations.ResetHasInvariant := ⟨State.resetWith_inv {}, State.resetWith_inv⟩

@[simp] theorem State.reg_resetWith (c : Config) (k : RegNum) : (State.resetWith c).reg k = 0#32 := by
  simp [State.reg, State.resetWith]

/-- Settles O53: a reset machine differs from the first state in its parameters and the environment's side alone. -/
theorem resetLeavesZeroExceptMsr : Obligations.ResetLeavesZeroExceptMsr := by
  rintro r (rfl | ⟨s, rfl⟩)
  · exact ⟨State.reg_resetWith {}, rfl, fun _ => rfl, rfl, rfl⟩
  · exact ⟨State.reg_resetWith s.cfg, rfl, fun _ => rfl, rfl, rfl⟩

end Sys2Proof.Machine
end

section
/-! SUPPORT. The proofs about memory (spec/20_memory.md): each of the six data instructions is one translated access at
its data address followed by its own writes, no other instruction writes memory; and the obligations O20 to O22, O40
and O47, each read off what the translated access does. -/

namespace Sys2Proof.Machine

/-! ### A data instruction is one translated access -/

/-- LDR, POP and RET read at their data address (R65). -/
theorem exec_load {i : Instr} {s : State} {va : Word} (hi : storesData i = false) (hva : dataAddressOf i s = some va) :
    ∃ k, exec i s = .next (s.conclude (s.memRead va) k) := by
  cases i with
  | ldr | pop | ret =>
    cases hva
    exact ⟨_, rfl⟩
  | str | push | call => cases hi
  | _ => cases hva

/-- STR, PUSH and CALL write at their data address (R65); the memory they leave is the one that write gives. -/
theorem exec_store {i : Instr} (s : State) (hi : storesData i = true) :
    ∃ va v k, dataAddressOf i s = some va ∧ exec i s = .next (s.conclude (s.memWrite va v) k) ∧
      ∀ m, (k m).mem = m := by
  cases i with
  | str | push | call => exact ⟨_, _, _, rfl, rfl, fun _ => rfl⟩
  | _ => cases hi

/-- When the access at the data address fails, whichever of the two the instruction makes, the instruction ends as
that failure says (R145). -/
theorem exec_of_access_eq {i : Instr} {s : State} {va : Word} {u : State} (hva : dataAddressOf i s = some va)
    (hread : storesData i = false → ∀ k, s.conclude (s.memRead va) k = u)
    (hwrite : ∀ v k, s.conclude (s.memWrite va v) k = u) : exec i s = .next u := by
  cases hi : storesData i with
  | false =>
    obtain ⟨k, he⟩ := exec_load hi hva
    rw [he, hread hi]
  | true =>
    obtain ⟨va', v, k, hva', he, -⟩ := exec_store s hi
    obtain rfl : va' = va := Option.some.inj (hva'.symm.trans hva)
    rw [he, hwrite]

/-- A mapped address whose four bytes do not all lie in memory stops both accesses (R68). -/
theorem State.beyond_memory_stops {s : State} {va pde pte pa : Word} (h : s.Maps va pde pte pa)
    (hr : s.MayAccess pde pte) (hp : s.cfg.memSize < pa.toNat + 4) (v : Word) :
    s.memRead va = .outOfRange ∧ s.memWrite va v = .outOfRange := by
  have hout : ¬ pa.toNat + 4 ≤ s.cfg.memSize := Nat.not_le.mpr hp
  constructor
  · rw [State.memRead_maps h (.inr hr), State.physRead_eq_none.mpr hout, Access.ofOption_none]
  · rw [State.memWrite_maps v h hr, State.physWrite_eq_none.mpr hout, Access.ofOption_none]

/-! ### The three failures of a data access -/

/-- Settles O20: the walk raises PageFault(0), which both accesses pass on. -/
theorem missingPageTraps : Obligations.MissingPageTraps := by
  intro i s va hva hmiss
  refine ⟨s.trigger 0x02#8 0#8, exec_of_access_eq hva (fun _ k => ?_) (fun v k => ?_), s.trigger_trapped _ _⟩
  · rw [(State.missing_traps hmiss 0#32).1, State.conclude_pageFault]
  · rw [(State.missing_traps hmiss v).2, State.conclude_pageFault]

/-- Settles O21: the rights check denies every write, and under `CHECK_READS` every read. -/
theorem kernelPageDeniedToUser : Obligations.KernelPageDeniedToUser := by
  intro i s va pde pte pa hva hmaps huser hkernel hchecked
  have hdenied : ¬ s.MayAccess pde pte := by
    rintro (h | ⟨hd, ht⟩)
    · simp [huser] at h
    · simp [hd, ht] at hkernel
  refine ⟨s.trigger 0x03#8 1#8, exec_of_access_eq hva (fun hi k => ?_) (fun v k => ?_), s.trigger_trapped _ _⟩
  · have hcheck : s.cfg.checkReads = true := hchecked.resolve_left (by simp [hi])
    rw [(State.denied_raises hmaps hdenied 0#32).1 hcheck, State.conclude_kernelPage]
  · rw [(State.denied_raises hmaps hdenied v).2, State.conclude_kernelPage]

/-- Settles O22: the access leaves memory in its walk, or at the address the walk gave. -/
theorem outOfRangeDataStops : Obligations.OutOfRangeDataStops := by
  intro i s va hva hout
  have hstops : ∀ v, s.memRead va = .outOfRange ∧ s.memWrite va v = .outOfRange := by
    rcases hout with hwalk | ⟨_, _, _, hmaps, hmay, hpa⟩
    · exact State.leaves_stops hwalk
    · exact State.beyond_memory_stops hmaps hmay hpa
  refine ⟨s.hostStop, exec_of_access_eq hva (fun _ k => ?_) (fun v k => ?_), rfl⟩
  · rw [(hstops 0#32).1, State.conclude_outOfRange]
  · rw [(hstops v).2, State.conclude_outOfRange]

/-! ### Loads see stores -/

/-- Settles O40: the two accesses meet at the physical address, where the stored word is read back. -/
theorem loadSeesStoreThroughAnyAlias : Obligations.LoadSeesStoreThroughAnyAlias := by
  intro s va va' pde pte pde' pte' pa v hwf hmaps hmay hpa
  refine ⟨_, State.memWrite_done v hmaps hmay hpa, fun hmaps' hmay' => ?_⟩
  rw [State.memRead_done hmaps' (.inr hmay') hpa, wordAt_eq, State.setMem_mem,
    Memory.readWord_writeWord_same hwf]

/-! ### Nothing but a store writes memory -/

theorem TrapTaken.mem_eq {s t : State} {n ec : Byte} (h : TrapTaken s t n ec) : t.mem = s.mem := by
  obtain ⟨_, -, rfl⟩ := h
  rfl

theorem HostStopped.mem_eq {s t : State} (h : HostStopped s t) : t.mem = s.mem := by
  subst h
  rfl

@[simp] theorem State.trigger_mem (s : State) (n ec : Byte) : (s.trigger n ec).mem = s.mem :=
  (s.trigger_keeps n ec).2.1

@[simp] theorem State.writeSpecial_mem (s : State) (r : SpecialReg) (v : Word) : (s.writeSpecial r v).mem = s.mem :=
  (s.writeSpecial_keeps r v).1

@[simp] theorem State.ioWrite_mem (s : State) (p : Port) (v : Word) : (s.ioWrite p v).mem = s.mem := by
  unfold State.ioWrite
  split <;> rfl

@[simp] theorem State.ioReadDone_mem (s : State) (p : Port) : (s.ioReadDone p).mem = s.mem := by
  unfold State.ioReadDone
  split <;> rfl

/-- Neither the trap nor the stop writes memory, so that an instruction keeps it when its own writes do. -/
theorem State.conclude_mem {α : Type} {s : State} {x : Access α} {k : α → State} (h : ∀ a, (k a).mem = s.mem) :
    (s.conclude x k).mem = s.mem := by
  rcases State.conclude_ends (rfl : s.conclude x k = _) with ⟨a, -, he⟩ | ⟨_, _, ht⟩ | hs
  · rw [he, h]
  · exact ht.mem_eq
  · exact hs.mem_eq

/-- An instruction whose data access is no write keeps memory (R65). -/
theorem exec_mem_of_not_storesData {i : Instr} {s t : State} (hi : storesData i = false) (h : exec i s = .next t) :
    t.mem = s.mem := by
  cases i with
  | str | push | call => cases hi
  | ldr | pop | ret | div | mod | mfs =>
    cases h
    exact State.conclude_mem fun _ => rfl
  | mts =>
    cases h
    exact State.conclude_mem fun r => s.writeSpecial_mem r _
  | swi =>
    cases h
    exact s.trigger_mem _ _
  | out =>
    cases h
    exact s.ioWrite_mem _ _
  | inp =>
    cases h
    exact s.ioReadDone_mem _
  | beq | bne =>
    cases h
    split <;> rfl
  | _ =>
    cases h
    rfl

/-- Settles O47: a step that runs no store keeps memory, and a store that completes has written the four bytes its
data address maps to. -/
theorem onlyStoresWriteMemory : Obligations.OnlyStoresWriteMemory := by
  intro s t h
  obtain ⟨-, ⟨w, i, hw, hdec, he⟩ | ⟨_, _, ht⟩ | hs⟩ := step_cases h
  · cases hi : storesData i with
    | false => exact .inl (exec_mem_of_not_storesData hi he)
    | true =>
      obtain ⟨va, v, k, hva, he', hk⟩ := exec_store s hi
      have hend : s.conclude (s.memWrite va v) k = t := Host.Outcome.next.inj (he'.symm.trans he)
      rcases State.conclude_ends hend with ⟨m, hm, rfl⟩ | ⟨_, _, ht⟩ | hs
      · rcases s.memWrite_cases va v with ⟨pde, pte, pa, hmaps, hmay, hpa, hdone⟩ | hfail | hfail | hfail
        · obtain rfl : m = Memory.writeWord s.mem pa.toNat v := Access.done.inj (hm.symm.trans hdone)
          exact .inr ⟨w, i, va, pde, pte, pa, hw, hdec, hi, hva, hmaps, hmay, hpa, (StoreEffect.of_mem (hk _)).1⟩
        all_goals cases hm.symm.trans hfail
      · exact .inl ht.mem_eq
      · exact .inl hs.mem_eq
  · exact .inl ht.mem_eq
  · exact .inl hs.mem_eq

end Sys2Proof.Machine
end

section
/-! SUPPORT. The proofs about the encoding (spec/30_encoding.md): which opcodes select an instruction, the round trip of
records and of instructions, and that a decoded instruction depends on the bits it uses alone; with the obligations
O43 and O56 to O59. -/

namespace Sys2Proof

open Sys2Proof.Machine

/-! ### The opcode map

Each class map has one branch per opcode of its class; that its last branch, the refusal, is not reached by an opcode of
the class is checked over the 64 opcodes. -/

/-- The opcodes of no class (R111). -/
theorem Format.ofOpcode_eq_none {op : Nat} : Format.ofOpcode op = none ↔ op = 0 ∨ 0x27 ≤ op := by
  unfold Format.ofOpcode
  split_ifs <;> simp only [false_iff, true_iff] <;> omega

/-- An opcode of a class fits its field. -/
theorem Format.lt_of_ofOpcode {op : Nat} {f : Format} (h : Format.ofOpcode op = some f) : op < 2 ^ 6 := by
  by_contra hlt
  rw [Format.ofOpcode_eq_none.mpr (by omega)] at h
  cases h

/-- Every R-class opcode selects an instruction. -/
theorem instrR_of_legal {op : BitVec 6} (h : Format.ofOpcode op.toNat = some .r) (rd rs1 rs2 : RegNum)
    (shamt : BitVec 6) : ∃ i, instrR op rd rs1 rs2 shamt = .ok i := by
  unfold instrR
  split
  case h_17 =>
    exfalso
    revert op
    decide
  all_goals exact ⟨_, rfl⟩

/-- Every I-class opcode selects an instruction. -/
theorem instrI_of_legal {op : BitVec 6} (h : Format.ofOpcode op.toNat = some .i) (rd rs1 : RegNum) (imm : Word) :
    ∃ i, instrI op rd rs1 imm = .ok i := by
  unfold instrI
  split
  case h_16 =>
    exfalso
    revert op
    decide
  all_goals exact ⟨_, rfl⟩

/-- Every J-class opcode selects an instruction. -/
theorem instrJ_of_legal {op : BitVec 6} (h : Format.ofOpcode op.toNat = some .j) (address : Word) :
    ∃ i, instrJ op address = .ok i := by
  unfold instrJ
  split
  case h_8 =>
    exfalso
    revert op
    decide
  all_goals exact ⟨_, rfl⟩

/-- A word is rejected exactly when its opcode is in no class (R111). -/
theorem decode_eq_error_iff {w : InstrWord} :
    decode w = .error (.invalidOpcode (opcodeOf w)) ↔ Format.ofOpcode (opcodeOf w).toNat = none := by
  refine ⟨fun h => ?_, decode_illegal⟩
  cases hf : Format.ofOpcode (opcodeOf w).toNat with
  | none => rfl
  | some f =>
    have hok : ∃ i, decode w = .ok i := by
      cases f with
      | r => rw [decode_r hf]; exact instrR_of_legal hf ..
      | i => rw [decode_i hf]; exact instrI_of_legal hf ..
      | j => rw [decode_j hf]; exact instrJ_of_legal hf ..
    obtain ⟨i, hi⟩ := hok
    cases h.symm.trans hi

/-! ### Records -/

/- The bounds of the field widths as numerals, as `Record.wellFormed` writes them. -/
@[simp] theorem regNum_toNat_lt (k : RegNum) : k.toNat < 32 := k.isLt
@[simp] theorem shamt_toNat_lt (n : BitVec 6) : n.toNat < 64 := n.isLt
@[simp] theorem func_toNat_lt (b : BitVec 8) : b.toNat < 256 := b.isLt
@[simp] theorem word_toNat_lt (v : Word) : v.toNat < 4294967296 := v.isLt

/-- A field value below the bound of its field is the value of a bit vector. -/
theorem exists_toNat_eq {n k : Nat} (h : n < 2 ^ k) : ∃ b : BitVec k, b.toNat = n := ⟨.ofNatLT n h, rfl⟩

/-- A well-formed record is made of bit vectors of its fields' widths, its opcode in its class. -/
theorem Record.wellFormed_cases {r : Record} (h : r.wellFormed = true) :
    (∃ (op shamt : BitVec 6) (rd rs1 rs2 : RegNum) (func : BitVec 8), Format.ofOpcode op.toNat = some .r ∧
      r = .r op.toNat rd.toNat rs1.toNat rs2.toNat shamt.toNat func.toNat) ∨
    (∃ (op : BitVec 6) (rd rs1 : RegNum) (imm : Word), Format.ofOpcode op.toNat = some .i ∧
      r = .i op.toNat rd.toNat rs1.toNat imm.toNat) ∨
    (∃ (op : BitVec 6) (address : Word), Format.ofOpcode op.toNat = some .j ∧ r = .j op.toNat address.toNat) := by
  cases r with
  | r op rd rs1 rs2 shamt func =>
    simp only [Record.wellFormed, Bool.and_eq_true, beq_iff_eq, decide_eq_true_eq] at h
    obtain ⟨⟨⟨⟨⟨hop, hrd⟩, hrs1⟩, hrs2⟩, hshamt⟩, hfunc⟩ := h
    obtain ⟨op, rfl⟩ := exists_toNat_eq (Format.lt_of_ofOpcode hop)
    obtain ⟨rd, rfl⟩ := exists_toNat_eq (k := 5) hrd
    obtain ⟨rs1, rfl⟩ := exists_toNat_eq (k := 5) hrs1
    obtain ⟨rs2, rfl⟩ := exists_toNat_eq (k := 5) hrs2
    obtain ⟨shamt, rfl⟩ := exists_toNat_eq (k := 6) hshamt
    obtain ⟨func, rfl⟩ := exists_toNat_eq (k := 8) hfunc
    exact .inl ⟨op, shamt, rd, rs1, rs2, func, hop, rfl⟩
  | i op rd rs1 imm =>
    simp only [Record.wellFormed, Bool.and_eq_true, beq_iff_eq, decide_eq_true_eq] at h
    obtain ⟨⟨⟨hop, hrd⟩, hrs1⟩, himm⟩ := h
    obtain ⟨op, rfl⟩ := exists_toNat_eq (Format.lt_of_ofOpcode hop)
    obtain ⟨rd, rfl⟩ := exists_toNat_eq (k := 5) hrd
    obtain ⟨rs1, rfl⟩ := exists_toNat_eq (k := 5) hrs1
    obtain ⟨imm, rfl⟩ := exists_toNat_eq himm
    exact .inr (.inl ⟨op, rd, rs1, imm, hop, rfl⟩)
  | j op address =>
    simp only [Record.wellFormed, Bool.and_eq_true, beq_iff_eq, decide_eq_true_eq] at h
    obtain ⟨hop, haddress⟩ := h
    obtain ⟨op, rfl⟩ := exists_toNat_eq (Format.lt_of_ofOpcode hop)
    obtain ⟨address, rfl⟩ := exists_toNat_eq haddress
    exact .inr (.inr ⟨op, address, hop, rfl⟩)

/-- The word of a well-formed record decodes to the record (R115, R116). -/
theorem decodeRecord_pack {r : Record} (h : r.wellFormed = true) : decodeRecord r.pack = .ok r := by
  rcases Record.wellFormed_cases h with ⟨op, shamt, rd, rs1, rs2, func, hop, rfl⟩ | ⟨op, rd, rs1, imm, hop, rfl⟩ |
    ⟨op, address, hop, rfl⟩
  · simp only [pack_r, decodeRecord, opcodeOf_r, hop, rdOf_r, rs1Of_r, rs2Of_r, shamtOf_r, funcOf_r]
  · simp only [pack_i, decodeRecord, opcodeOf_i, hop, rdOf_i, rs1Of_i, immOf_i]
  · simp only [pack_j, decodeRecord, opcodeOf_j, hop, addressOf_j]

/-- The upper bits of a word over zeros are the word with its lower bits masked off. -/
theorem extractLsb'_append_zero {n k : Nat} (w : BitVec (n + k)) :
    w.extractLsb' k n ++ 0#k = w &&& (BitVec.allOnes n ++ 0#k) := by
  conv_rhs => rw [← BitVec.extractLsb'_append_extractLsb' (x := w)]
  rw [BitVec.and_append, BitVec.and_allOnes, BitVec.and_zero]

/-- Packing the fields of an R-class word clears its reserved bits (R102, R117). -/
theorem pack_fields_r (w : InstrWord) :
    opcodeOf w ++ rdOf w ++ rs1Of w ++ rs2Of w ++ shamtOf w ++ funcOf w ++ 0#29 = w &&& formatBits .r := by
  have hjoin : opcodeOf w ++ rdOf w ++ rs1Of w ++ rs2Of w ++ shamtOf w ++ funcOf w = w.extractLsb' 29 35 := by
    simp only [opcodeOf, rdOf, rs1Of, rs2Of, shamtOf, funcOf, BitVec.extractLsb'_append_extractLsb'_eq_extractLsb']
  have hmask : formatBits .r = BitVec.allOnes 35 ++ 0#29 := rfl
  rw [hjoin, hmask]
  exact extractLsb'_append_zero (n := 35) (k := 29) w

/-- The same for the I class (R103). -/
theorem pack_fields_i (w : InstrWord) :
    opcodeOf w ++ rdOf w ++ rs1Of w ++ immOf w ++ 0#16 = w &&& formatBits .i := by
  have hjoin : opcodeOf w ++ rdOf w ++ rs1Of w ++ immOf w = w.extractLsb' 16 48 := by
    simp only [opcodeOf, rdOf, rs1Of, immOf, BitVec.extractLsb'_append_extractLsb'_eq_extractLsb']
  have hmask : formatBits .i = BitVec.allOnes 48 ++ 0#16 := rfl
  rw [hjoin, hmask]
  exact extractLsb'_append_zero (n := 48) (k := 16) w

/-- The same for the J class (R104). -/
theorem pack_fields_j (w : InstrWord) : opcodeOf w ++ addressOf w ++ 0#26 = w &&& formatBits .j := by
  have hjoin : opcodeOf w ++ addressOf w = w.extractLsb' 26 38 := by
    simp only [opcodeOf, addressOf, BitVec.extractLsb'_append_extractLsb'_eq_extractLsb']
  have hmask : formatBits .j = BitVec.allOnes 38 ++ 0#26 := rfl
  rw [hjoin, hmask]
  exact extractLsb'_append_zero (n := 38) (k := 26) w

/-- The record of a word is well formed, and packing it clears the reserved bits of the word's format (R117). -/
theorem decodeRecord_masks {w : InstrWord} {f : Format} {r : Record}
    (hf : Format.ofOpcode (opcodeOf w).toNat = some f) (h : decodeRecord w = .ok r) :
    r.wellFormed = true ∧ r.pack = w &&& formatBits f := by
  rw [decodeRecord, hf] at h
  cases f with
  | r =>
    cases h
    exact ⟨by simp [Record.wellFormed, hf], by rw [pack_r, pack_fields_r]⟩
  | i =>
    cases h
    exact ⟨by simp [Record.wellFormed, hf], by rw [pack_i, pack_fields_i]⟩
  | j =>
    cases h
    exact ⟨by simp [Record.wellFormed, hf], by rw [pack_j, pack_fields_j]⟩

theorem encodeRecord_of_wellFormed {r : Record} (h : r.wellFormed = true) : encodeRecord r = .ok r.pack := by
  rw [encodeRecord, if_pos h]

/-- Settles O57: the fields of a packed record are read back, and those of a word pack to the word without its
reserved bits. -/
theorem recordRoundTrip : Obligations.RecordRoundTrip := by
  refine ⟨fun r h => ⟨r.pack, encodeRecord_of_wellFormed h, decodeRecord_pack h⟩, fun r h => ?_, fun w r f hf h => ?_⟩
  · simp [encodeRecord, h]
  · obtain ⟨hwf, hpack⟩ := decodeRecord_masks hf h
    rw [encodeRecord_of_wellFormed hwf, hpack]

/-! ### Instructions -/

/-- The record of an instruction is well formed: each operand has the width of its field. -/
theorem Instr.toRecord_wellFormed (i : Instr) : i.toRecord.wellFormed = true := by
  cases i <;> simp [Instr.toRecord, Record.wellFormed, Format.ofOpcode]

/-- The record of an instruction stands for it (R118). -/
theorem Instr.toInstr_toRecord (i : Instr) : i.toRecord.toInstr = .ok i := by
  cases i <;> simp [Instr.toRecord, Record.toInstr, instrR, instrI, instrJ]

/-- Settles O56: the record of an instruction survives packing, and stands for the instruction. -/
theorem decodeEncodeRoundTrip : Obligations.DecodeEncodeRoundTrip := by
  intro i
  rw [decode, encode, decodeRecord_pack i.toRecord_wellFormed]
  exact i.toInstr_toRecord

/-- Settles O43: the opcodes in no class are the 26, and a step that fetched one of them triggers InvalidOpcode(0). -/
theorem illegalOpcodeTraps : Obligations.IllegalOpcodeTraps := by
  have hillegal (w : InstrWord) : (w.extractLsb' 58 6 = 0#6 ∨ 0x27 ≤ (w.extractLsb' 58 6).toNat) ↔
      decode w = .error (.invalidOpcode (w.extractLsb' 58 6)) := by
    rw [← BitVec.toNat_inj]
    exact Format.ofOpcode_eq_none.symm.trans decode_eq_error_iff.symm
  refine ⟨hillegal, fun s hrun hraw hin hop => ⟨_, ?_, s.trigger_trapped 0x01#8 0#8⟩⟩
  rw [step_fetched hrun (State.fetch_raw hraw hin), (hillegal _).mp hop]
  rfl

/-! ### The bits an instruction uses -/

section masked
variable {w w' m : InstrWord} (h : w &&& m = w' &&& m)
include h

/-- Words that agree under a mask agree on every field the mask covers. -/
theorem extractLsb'_eq_of_masked {n k : Nat} (hm : m.extractLsb' n k = BitVec.allOnes k) :
    w'.extractLsb' n k = w.extractLsb' n k := by
  have hfield : (w &&& m).extractLsb' n k = (w' &&& m).extractLsb' n k := by rw [h]
  simpa only [BitVec.extractLsb'_and, hm, BitVec.and_allOnes] using hfield.symm

theorem opcodeOf_eq_of_masked (hm : opcodeOf m = BitVec.allOnes 6) : opcodeOf w' = opcodeOf w :=
  extractLsb'_eq_of_masked h hm

theorem rdOf_eq_of_masked (hm : rdOf m = BitVec.allOnes 5) : rdOf w' = rdOf w := extractLsb'_eq_of_masked h hm

theorem rs1Of_eq_of_masked (hm : rs1Of m = BitVec.allOnes 5) : rs1Of w' = rs1Of w := extractLsb'_eq_of_masked h hm

theorem rs2Of_eq_of_masked (hm : rs2Of m = BitVec.allOnes 5) : rs2Of w' = rs2Of w := extractLsb'_eq_of_masked h hm

theorem shamtOf_eq_of_masked (hm : shamtOf m = BitVec.allOnes 6) : shamtOf w' = shamtOf w :=
  extractLsb'_eq_of_masked h hm

theorem immOf_eq_of_masked (hm : immOf m = BitVec.allOnes 32) : immOf w' = immOf w := extractLsb'_eq_of_masked h hm

theorem addressOf_eq_of_masked (hm : addressOf m = BitVec.allOnes 32) : addressOf w' = addressOf w :=
  extractLsb'_eq_of_masked h hm

end masked

/-- Every instruction uses the opcode. -/
theorem opcodeOf_usedBits (i : Instr) : opcodeOf (usedBits i) = BitVec.allOnes 6 := by
  cases i <;> simp [usedBits, opcodeOf]

section agree
variable {w w' : InstrWord} {i : Instr} {op : BitVec 6} (hw : w &&& usedBits i = w' &&& usedBits i)
include hw

/-- The R-class map reads no field that its instruction does not use (R118). -/
theorem instrR_of_masked (h : instrR op (rdOf w) (rs1Of w) (rs2Of w) (shamtOf w) = .ok i) :
    instrR op (rdOf w') (rs1Of w') (rs2Of w') (shamtOf w') = .ok i := by
  unfold instrR at h
  split at h <;> cases h <;> simp only [usedBits] at hw
  case h_6 | h_7 | h_15 | h_16 => -- LSL, LSR, ASL, ASR
    rw [rdOf_eq_of_masked hw rfl, rs1Of_eq_of_masked hw rfl, shamtOf_eq_of_masked hw rfl]
    rfl
  case h_11 | h_12 => -- NOT, NEG
    rw [rdOf_eq_of_masked hw rfl, rs1Of_eq_of_masked hw rfl]
    rfl
  case h_13 | h_14 => -- INC, DEC
    rw [rdOf_eq_of_masked hw rfl]
    rfl
  all_goals -- three registers
    rw [rdOf_eq_of_masked hw rfl, rs1Of_eq_of_masked hw rfl, rs2Of_eq_of_masked hw rfl]
    rfl

/-- The I-class map reads no field that its instruction does not use (R118). -/
theorem instrI_of_masked (h : instrI op (rdOf w) (rs1Of w) (immOf w) = .ok i) :
    instrI op (rdOf w') (rs1Of w') (immOf w') = .ok i := by
  unfold instrI at h
  split at h <;> cases h <;> simp only [usedBits] at hw
  case h_1 | h_2 => -- LDR, STR
    rw [rdOf_eq_of_masked hw rfl, rs1Of_eq_of_masked hw rfl, immOf_eq_of_masked hw rfl]
    rfl
  case h_3 | h_4 | h_9 => -- BEQ, BNE, SWI
    rw [immOf_eq_of_masked hw rfl]
    rfl
  case h_7 | h_8 => -- PUSH, POP
    rw [rdOf_eq_of_masked hw rfl]
    rfl
  all_goals -- two registers
    rw [rdOf_eq_of_masked hw rfl, rs1Of_eq_of_masked hw rfl]
    rfl

/-- The J-class map reads no address that its instruction does not use (R118). -/
theorem instrJ_of_masked (h : instrJ op (addressOf w) = .ok i) : instrJ op (addressOf w') = .ok i := by
  unfold instrJ at h
  split at h <;> cases h <;> simp only [usedBits] at hw
  case h_1 | h_2 | h_3 => -- JMP, JAL, CALL
    rw [addressOf_eq_of_masked hw rfl]
    rfl
  all_goals rfl

end agree

/-- Settles O58: the words have one opcode, and its class's map reads only fields on which they agree. -/
theorem ignoredBitsDoNotMatter : Obligations.IgnoredBitsDoNotMatter := by
  intro w w' i h hw
  have hop : opcodeOf w' = opcodeOf w := opcodeOf_eq_of_masked hw (opcodeOf_usedBits i)
  cases hf : Format.ofOpcode (opcodeOf w).toNat with
  | none => cases (decode_illegal hf).symm.trans h
  | some f =>
    have hf' : Format.ofOpcode (opcodeOf w').toNat = some f := by rw [hop, hf]
    cases f with
    | r =>
      rw [decode_r hf] at h
      rw [decode_r hf', hop]
      exact instrR_of_masked hw h
    | i =>
      rw [decode_i hf] at h
      rw [decode_i hf', hop]
      exact instrI_of_masked hw h
    | j =>
      rw [decode_j hf] at h
      rw [decode_j hf', hop]
      exact instrJ_of_masked hw h

/-- Settles O59: each word is decoded by evaluation. -/
theorem decodesHandEncodedWords : Obligations.DecodesHandEncodedWords := by
  unfold Obligations.DecodesHandEncodedWords
  decide

end Sys2Proof
end

section
/-! SUPPORT. The proofs about the assembler (spec/30_encoding.md R125 to R133): the table of mnemonics with the operands
read for them, and the obligation O60. -/

namespace Sys2Proof.Machine

/-- A special register the instruction names is one of the 14 (R30). -/
def NamesExistingSpecial : Instr → Prop
  | .mfs _ spec | .mts spec _ => spec.toNat ≤ 13
  | _ => True

/-- Operands in their ranges make an instruction that names only existing special registers. -/
def OperandForm.KeepsSpecials : OperandForm → Prop
  | .rrr mk => ∀ rd rs1 rs2, NamesExistingSpecial (mk rd rs1 rs2)
  | .rrShift mk => ∀ rd rs1 n, NamesExistingSpecial (mk rd rs1 n)
  | .rr mk => ∀ rd rs1, NamesExistingSpecial (mk rd rs1)
  | .r mk => ∀ rd, NamesExistingSpecial (mk rd)
  | .rSpecial mk => ∀ rd spec : RegNum, spec.toNat ≤ 13 → NamesExistingSpecial (mk rd spec)
  | .specialR mk => ∀ spec rs : RegNum, spec.toNat ≤ 13 → NamesExistingSpecial (mk spec rs)
  | .rMemory mk => ∀ rd rs1 imm, NamesExistingSpecial (mk rd rs1 imm)
  | .number mk => ∀ imm, NamesExistingSpecial (mk imm)
  | .none i => NamesExistingSpecial i

/-- Each row of the mnemonic table pairs its constructor with a form that reads its special register by name. -/
theorem keepsSpecials_of_mem {row : String × OperandForm} (h : row ∈ mnemonicTable) : row.2.KeepsSpecials := by
  revert row
  simp [mnemonicTable, mnemonicsLow, mnemonicsHigh, OperandForm.KeepsSpecials, NamesExistingSpecial]

theorem keepsSpecials_of_formOf {cs : List Char} {f : OperandForm} (h : formOf cs = some f) : f.KeepsSpecials := by
  obtain ⟨row, hrow, rfl⟩ := Option.map_eq_some_iff.mp h
  exact keepsSpecials_of_mem (List.mem_of_find?_eq_some hrow)

/-- A special register read from its name is one of the 14 (R127). -/
theorem specialOperand_le {cs : List Char} {n : RegNum} (h : specialOperand cs = .ok n) : n.toNat ≤ 13 := by
  unfold specialOperand at h
  split at h
  · rename_i k hk
    have hlt : k < 14 := (List.findIdx?_eq_some_iff_getElem.mp hk).1
    cases h
    rw [BitVec.toNat_ofNat]
    omega
  · cases h

/-- Operands read one after the other are all read. -/
theorem bind_eq_ok {α β : Type} {x : Except AsmError α} {f : α → Except AsmError β} {b : β} :
    (x >>= f) = .ok b ↔ ∃ a, x = .ok a ∧ f a = .ok b := by
  cases x with
  | ok a => exact ⟨fun h => ⟨a, rfl, h⟩, by rintro ⟨_, ⟨⟩, h⟩; exact h⟩
  | error e => exact ⟨nofun, nofun⟩

/-- An operand form of the table builds only instructions that name existing special registers. -/
theorem build_namesExistingSpecial {sentinel : RegNum} {f : OperandForm} {ops : List (List Char)} {i : Instr}
    (hf : f.KeepsSpecials) (h : f.build sentinel ops = .ok i) : NamesExistingSpecial i := by
  unfold OperandForm.build at h
  split at h
  case h_10 => -- `none`
    cases h
    exact hf
  case h_11 => cases h -- wrong arity
  all_goals simp only [bind_eq_ok] at h
  case h_1 | h_2 | h_8 => -- `rrr`, `rrShift`, `rMemory` with a base register
    obtain ⟨_, -, _, -, _, -, ⟨⟩⟩ := h
    exact hf ..
  case h_3 | h_7 => -- `rr`, absolute `rMemory`
    obtain ⟨_, -, _, -, ⟨⟩⟩ := h
    exact hf ..
  case h_4 | h_9 => -- `r`, `number`
    obtain ⟨_, -, ⟨⟩⟩ := h
    exact hf ..
  case h_5 => -- `rSpecial`
    obtain ⟨rd, -, spec, hspec, ⟨⟩⟩ := h
    exact hf rd spec (specialOperand_le hspec)
  case h_6 => -- `specialR`
    obtain ⟨spec, hspec, rs, -, ⟨⟩⟩ := h
    exact hf spec rs (specialOperand_le hspec)

theorem parseLine_namesExistingSpecial {sentinel : RegNum} {line : List Char} {i : Instr}
    (h : parseLine sentinel line = .ok i) : NamesExistingSpecial i := by
  unfold parseLine at h
  split at h
  · split at h
    · cases h
    · rename_i hf
      split at h
      · cases h
      · exact build_namesExistingSpecial (keepsSpecials_of_formOf hf) h
  · cases h

/-- Settles O60: the word is the encoding of the instruction read, which the decoder gives back. -/
theorem assembledLineDecodes : Obligations.AssembledLineDecodes := by
  intro sentinel line w h
  unfold assembleLine at h
  cases hp : parseLine sentinel line with
  | error e =>
    rw [hp] at h
    cases h
  | ok i =>
    rw [hp] at h
    cases h
    refine ⟨i, rfl, decodeEncodeRoundTrip i, ?_⟩
    rintro k n (rfl | rfl)
    all_goals exact parseLine_namesExistingSpecial hp

end Sys2Proof.Machine
end

section
/-! SUPPORT. The proofs about the execution cycle (spec/40_execution_cycle.md): what a raw and a translated fetch give,
what the step after each fetch is, what the host's placing of an instruction leaves where the next step fetches, and
which instructions leave `I0` past themselves; and the obligations O42, O44, O46 and O55, each read off those. -/

namespace Sys2Proof.Machine

/-! ### The fetch and the step after it (R141 to R143) -/

theorem State.fetchHalf_raw {s : State} (h : s.cfg.fetchTranslated = false) (a : Word) :
    s.fetchHalf a = .ofOption (s.physRead a) := by
  rw [State.fetchHalf, h]
  rfl

theorem State.fetchHalf_translated {s : State} (h : s.cfg.fetchTranslated = true) (a : Word) :
    s.fetchHalf a = s.memRead a := by
  rw [State.fetchHalf, if_pos h]

/-- Under `FETCH_TRANSLATED` the two halves are translated reads, the one at `I0 + 4` the upper (R141). -/
theorem State.fetch_translated {s : State} {lo hi : Word} (h : s.cfg.fetchTranslated = true)
    (hlo : s.memRead s.i0 = .done lo) (hhi : s.memRead (s.i0 + 4#32) = .done hi) : s.fetch = .done (hi ++ lo) := by
  rw [State.fetch, State.fetchHalf_translated h, State.fetchHalf_translated h, hlo, hhi]
  rfl

/-- A raw fetch leaves memory with whichever half is outside (R66, R141). -/
theorem State.fetch_outOfRange {s : State} (h : s.cfg.fetchTranslated = false) (hout : ¬ s.fetchInMemory) :
    s.fetch = .outOfRange := by
  rw [State.fetch, State.fetchHalf_raw h, State.fetchHalf_raw h]
  by_cases hlo : s.i0.toNat + 4 ≤ s.cfg.memSize
  · have hhi : ¬ (s.i0 + 4#32).toNat + 4 ≤ s.cfg.memSize := fun hhi => hout ⟨hlo, hhi⟩
    rw [State.physRead_eq_some.mpr ⟨hlo, rfl⟩, State.physRead_eq_none.mpr hhi]
    rfl
  · rw [State.physRead_eq_none.mpr hlo]
    rfl

/-- A running machine runs the instruction its fetched word decodes to (R143). -/
theorem step_decoded {s : State} {w : InstrWord} {i : Instr} (hrun : s.running) (hfetch : s.fetch = .done w)
    (hdec : decode w = .ok i) : step s = exec i s := by
  rw [step_fetched hrun hfetch, hdec]

/-- A fetch outside memory ends the step with the stop (R68, R141). -/
theorem step_fetch_outOfRange {s : State} (hrun : s.running) (hfetch : s.fetch = .outOfRange) :
    step s = .next s.hostStop := by
  simp only [step, hrun.1, hrun.2, hfetch, Bool.false_eq_true, if_false]

/-- Settles O42: either fetch gives the word, and the step runs what it decodes to. -/
theorem stepRunsDecodedInstruction : Obligations.StepRunsDecodedInstruction := by
  intro s i hrun
  exact ⟨fun hraw hin => step_decoded hrun (State.fetch_raw hraw hin),
    fun lo hi htrans hlo hhi => step_decoded hrun (State.fetch_translated htrans hlo hhi)⟩

/-- Settles O44: the fetch leaves memory, and the step is the stop. -/
theorem fetchOutOfRangeStops : Obligations.FetchOutOfRangeStops := by
  intro s hrun hraw hout
  exact ⟨s.hostStop, step_fetch_outOfRange hrun (State.fetch_outOfRange hraw hout), rfl⟩

/-! ### The instruction the host places (R290, log 6) -/

/-- The host's decoder takes the same instruction from a number as `decode` from its word. -/
theorem decode_of_decodeTableWord {w : Nat} {i : Instr} (h : decodeTableWord 64 w = some i) :
    decode (BitVec.ofNat 64 (w % 2 ^ 64)) = .ok i := by
  have hw : w % 2 ^ 64 = (BitVec.ofNat 64 (w % 2 ^ 64)).toNat := by simp
  rw [decodeTableWord, hw, decodeBytes_bytesOf] at h
  cases hd : decode (BitVec.ofNat 64 (w % 2 ^ 64)) with
  | error e =>
    rw [hd] at h
    cases h
  | ok j =>
    rw [hd] at h
    cases h
    rfl

/-- The halves of an instruction never overlap, not even when `I0 + 4` wraps. -/
theorem halves_disjoint (a : Word) : (a + 4#32).toNat + 4 ≤ a.toNat ∨ a.toNat + 4 ≤ (a + 4#32).toNat := by
  bv_omega

/-- The word whose halves were stored, put together again (R141). -/
theorem append_halves (w : InstrWord) : w.extractLsb' 32 32 ++ w.extractLsb' 0 32 = w := by
  rw [BitVec.extractLsb'_append_extractLsb'_eq_extractLsb' (by rfl)]
  exact BitVec.extractLsb'_eq_self

/-- A half placed where a raw fetch reads it is a word stored at its address. -/
theorem State.storeHalf_raw {s : State} {a : Word} (h : s.cfg.fetchTranslated = false)
    (ha : a.toNat + 4 ≤ s.cfg.memSize) (v : Word) :
    s.storeHalf a v = s.setMem (Memory.writeWord s.mem a.toNat v) := by
  have hplace : s.fetchPlace a = some a := by simp [State.fetchPlace, h]
  simp only [State.storeHalf, hplace, State.physWrite_eq_some.mpr ⟨ha, rfl⟩]

/-- Placing an instruction for a raw fetch stores its two halves and nothing else. -/
theorem State.storeAtFetch_raw {s : State} (h : s.cfg.fetchTranslated = false) (hin : s.fetchInMemory)
    (w : InstrWord) :
    s.storeAtFetch w = s.setMem (Memory.writeWord (Memory.writeWord s.mem s.i0.toNat (w.extractLsb' 0 32))
      (s.i0 + 4#32).toNat (w.extractLsb' 32 32)) := by
  rw [State.storeAtFetch, State.storeHalf_raw h hin.1]
  exact State.storeHalf_raw (by exact h) (by exact hin.2) _

/-- The placed instruction stands at `I0`: the second store leaves the first half alone. -/
theorem State.wordAtPc_storeAtFetch {s : State} (h : s.cfg.fetchTranslated = false) (hin : s.fetchInMemory)
    (hwf : Memory.wf s.mem = true) (w : InstrWord) : (s.storeAtFetch w).wordAtPc = w := by
  rw [State.storeAtFetch_raw h hin, State.wordAtPc, wordAt_eq, wordAt_eq, State.setMem_mem, State.setMem_i0,
    Memory.readWord_writeWord_same (Memory.writeWord_wf hwf _ _),
    Memory.readWord_writeWord_ne _ _ (halves_disjoint s.i0).symm, Memory.readWord_writeWord_same hwf, append_halves]

/-- Placing writes memory alone, so a running machine still runs, and it fetches the placed instruction. -/
theorem step_storeAtFetch {s : State} {w : InstrWord} {i : Instr} (hrun : s.running)
    (h : s.cfg.fetchTranslated = false) (hin : s.fetchInMemory) (hwf : Memory.wf s.mem = true)
    (hdec : decode w = .ok i) : step (s.storeAtFetch w) = exec i (s.storeAtFetch w) := by
  have hword := State.wordAtPc_storeAtFetch h hin hwf w
  rw [State.storeAtFetch_raw h hin] at hword ⊢
  exact step_decoded hrun (State.fetch_raw h hin) (by rwa [hword])

/-- Settles O55: the placed word decodes as the host's decoder says, and the next step runs it. -/
theorem placedWordRunsNext : Obligations.PlacedWordRunsNext := by
  intro s w i hrun hraw hin hwf hdec
  exact step_storeAtFetch hrun hraw hin hwf (decode_of_decodeTableWord hdec)

/-! ### The advance of `I0` (R144, R148) -/

@[simp] theorem State.ioWrite_i0 (s : State) (p : Port) (v : Word) : (s.ioWrite p v).i0 = s.i0 := by
  unfold State.ioWrite
  split <;> rfl

@[simp] theorem State.ioReadDone_i0 (s : State) (p : Port) : (s.ioReadDone p).i0 = s.i0 := by
  unfold State.ioReadDone
  split <;> rfl

/-- Number 0 alone names `I0` (R30). -/
theorem eq_zero_of_specialOf_i0 {n : RegNum} (h : specialOf n = some .i0) : n = 0#5 := by
  revert n
  decide

/-- A write of a special register other than `I0` keeps `I0` (R228). -/
theorem State.writeSpecial_i0 (s : State) {r : SpecialReg} (v : Word) (h : r ≠ .i0) :
    (s.writeSpecial r v).i0 = s.i0 := by
  cases r with
  | i0 => exact absurd rfl h
  | _ => rfl

/-- An instruction whose own writes advance `I0` advances it, is trapped or stops the machine (R144, R145). -/
theorem State.conclude_advances {α : Type} {s : State} {x : Access α} {k : α → State}
    (h : ∀ a, x = .done a → (k a).i0 = s.i0 + 8#32) :
    (s.conclude x k).i0 = s.i0 + 8#32 ∨ (∃ n ec, TrapTaken s (s.conclude x k) n ec) ∨
      HostStopped s (s.conclude x k) := by
  rcases State.conclude_ends (rfl : s.conclude x k = _) with ⟨a, hx, he⟩ | hfail
  · exact .inl (by rw [he, h a hx])
  · exact .inr hfail

/-- Settles O46: every instruction left ends in the advance, unless its access fails; `MTS` has written a register other
than `I0` before it. -/
theorem advanceByEightUnlessTransfer : Obligations.AdvanceByEightUnlessTransfer := by
  intro i s t hpc h
  cases i with
  | jmp | jal | call | ret | iret | beq | bne | swi => cases hpc
  | ldr | str | push | pop | div | mod | mfs =>
    cases h
    exact State.conclude_advances fun _ _ => rfl
  | mts spec rs =>
    cases h
    refine State.conclude_advances fun r hr => ?_
    have hne : r ≠ .i0 := by
      rintro rfl
      simp [setsPc, eq_zero_of_specialOf_i0 (specialOf_of_specialAccess hr)] at hpc
    rw [State.advance_i0, State.writeSpecial_i0 s _ hne]
  | out =>
    cases h
    exact .inl (by rw [State.advance_i0, State.ioWrite_i0])
  | inp =>
    cases h
    exact .inl (by rw [State.advance_i0, State.setReg_i0, State.ioReadDone_i0])
  | _ =>
    cases h
    exact .inl rfl

end Sys2Proof.Machine
end

section
/-! SUPPORT. The proofs about arithmetic and logic (spec/41_alu.md): the results and flags of the model in the terms of
the claims, the two ends of an R-type instruction, and the obligations O1 to O9 and O35 to O37, each read off those. -/

namespace Sys2Proof.Machine

/-! ### Decoding an R-type word -/

/-- An opcode of the R class selects the instruction its map gives for the fields (R102, R110). -/
theorem decode_of_opcode_r {w : InstrWord} {op : BitVec 6} {i : Instr} (hop : w.extractLsb' 58 6 = op)
    (hclass : Format.ofOpcode op.toNat = some .r)
    (hi : instrR op (rdOf w) (rs1Of w) (rs2Of w) (shamtOf w) = .ok i) : decode w = .ok i := by
  obtain rfl : opcodeOf w = op := hop
  rw [decode_r hclass, hi]

/-! ### Results and flags in exact arithmetic -/

/-- The carry out of bit 31 says that the exact sum does not fit 32 bits (R151). -/
theorem addCarry_eq (a b : Word) : addCarry a b = decide (2 ^ 32 ≤ a.toNat + b.toNat) := by
  rw [addCarry, Nat.testBit_eq_decide_div_mod_eq, decide_eq_decide]
  have ha := a.isLt
  have hb := b.isLt
  omega

/-- The formula of R151 for V is the overflow of the exact signed sum. -/
theorem addOverflow_iff (a b : Word) :
    addOverflow a b = true ↔ a.toInt + b.toInt < -2 ^ 31 ∨ 2 ^ 31 ≤ a.toInt + b.toInt := by
  have hbits : addOverflow a b = a.saddOverflow b := (BitVec.saddOverflow_eq a b).symm
  rw [hbits, BitVec.saddOverflow, Bool.or_eq_true, decide_eq_true_eq, decide_eq_true_eq, or_comm]

/-- The formula of R152 and R181 for V is the overflow of the exact signed difference. -/
theorem subOverflow_iff (a b : Word) :
    subOverflow a b = true ↔ a.toInt - b.toInt < -2 ^ 31 ∨ 2 ^ 31 ≤ a.toInt - b.toInt := by
  have hsigns : ∀ x y z : Bool, (x != y && z != x) = (!x && y && z || x && !y && !z) := by decide
  have hbits : subOverflow a b = a.ssubOverflow b := (hsigns _ _ _).trans (BitVec.ssubOverflow_eq a b).symm
  rw [hbits, BitVec.ssubOverflow, Bool.or_eq_true, decide_eq_true_eq, decide_eq_true_eq, or_comm]

/-- A difference of words is the exact difference modulo 2^32 (R152). -/
theorem sub_eq_ofInt (a b : Word) : a - b = BitVec.ofInt 32 ((a.toNat : Int) - b.toNat) := by
  rw [Int.sub_eq_add_neg, BitVec.ofInt_add, BitVec.ofInt_neg]
  simp only [BitVec.ofInt_natCast, BitVec.ofNat_toNat, BitVec.setWidth_eq]
  exact sub_eq_add_neg a b

theorem mulOverflow_eq (a b : Word) :
    mulOverflow a b = decide (a.toInt * b.toInt < -2 ^ 31 ∨ 2 ^ 31 - 1 < a.toInt * b.toInt) :=
  (Bool.decide_or _ _).symm

/-- The unsigned and the signed product agree in their low 32 bits (R156). -/
theorem product_eq_signed (a b : Word) : product a b = BitVec.ofInt 32 (a.toInt * b.toInt) := by
  rw [product, BitVec.ofNat_mul, BitVec.ofInt_mul]
  simp only [BitVec.ofNat_toNat, BitVec.setWidth_eq, BitVec.ofInt_toInt]

theorem quotient_unsigned (a b : Word) : quotient false a b = BitVec.ofNat 32 (a.toNat / b.toNat) := rfl

theorem quotient_signed (a b : Word) : quotient true a b = BitVec.ofInt 32 (a.toInt.tdiv b.toInt) := rfl

/-- The unsigned remainder as R158 writes it. -/
theorem remainder_unsigned (a b : Word) :
    remainder false a b = BitVec.ofNat 32 (a.toNat - b.toNat * (a.toNat / b.toNat)) := by
  rw [← Nat.mod_eq_sub]
  rfl

theorem remainder_signed (a b : Word) : remainder true a b = BitVec.ofInt 32 (a.toInt.tmod b.toInt) := rfl

/-- A number not above the value of a word fits a word. -/
theorem toNat_ofNat_of_le {n : Nat} {a : Word} (h : n ≤ a.toNat) : (BitVec.ofNat 32 n).toNat = n :=
  (BitVec.toNat_ofNat n 32).trans (Nat.mod_eq_of_lt (lt_of_le_of_lt h a.isLt))

/-! ### The two ends of an R-type instruction -/

theorem State.conclude_divided_of_ne {s : State} {b : Word} (h : b ≠ 0#32) (r : Word) (k : Word → State) :
    s.conclude (divided b r) k = k r := by
  rw [divided, if_neg h, State.conclude_done]

theorem State.conclude_divided_of_zero {s : State} {b : Word} (h : b = 0#32) (r : Word) (k : Word → State) :
    s.conclude (divided b r) k = s.trigger 0x00#8 0#8 := by
  rw [divided, if_pos h, State.conclude_divideByZero]

section divisions
variable {rd rs1 rs2 : RegNum} {s : State}

theorem exec_div_of_ne (h : s.reg rs2 ≠ 0#32) : exec (.div rd rs1 rs2) s =
    .next (s.writeResult rd (quotient s.cfg.divSigned (s.reg rs1) (s.reg rs2)) false false) :=
  congrArg Host.Outcome.next (State.conclude_divided_of_ne h _ _)

theorem exec_mod_of_ne (h : s.reg rs2 ≠ 0#32) : exec (.mod rd rs1 rs2) s =
    .next (s.writeResult rd (remainder s.cfg.divSigned (s.reg rs1) (s.reg rs2)) false false) :=
  congrArg Host.Outcome.next (State.conclude_divided_of_ne h _ _)

theorem exec_div_of_zero (h : s.reg rs2 = 0#32) : exec (.div rd rs1 rs2) s = .next (s.trigger 0x00#8 0#8) :=
  congrArg Host.Outcome.next (State.conclude_divided_of_zero h _ _)

theorem exec_mod_of_zero (h : s.reg rs2 = 0#32) : exec (.mod rd rs1 rs2) s = .next (s.trigger 0x00#8 0#8) :=
  congrArg Host.Outcome.next (State.conclude_divided_of_zero h _ _)

end divisions

/-- An R-type instruction writes a result with its flags, or is a division by zero and traps (R150, R157, R158). -/
theorem exec_alu_cases {i : Instr} {rd : RegNum} (hi : aluDest i = some rd) (s : State) :
    (∃ r c v, exec i s = .next (s.writeResult rd r c v)) ∨
    ∃ rs1 rs2, (i = .div rd rs1 rs2 ∨ i = .mod rd rs1 rs2) ∧ s.reg rs2 = 0#32 ∧
      exec i s = .next (s.trigger 0x00#8 0#8) := by
  cases i with
  | div _ rs1 rs2 =>
    cases hi
    by_cases hz : s.reg rs2 = 0#32
    · exact .inr ⟨rs1, rs2, .inl rfl, hz, exec_div_of_zero hz⟩
    · exact .inl ⟨_, _, _, exec_div_of_ne hz⟩
  | mod _ rs1 rs2 =>
    cases hi
    by_cases hz : s.reg rs2 = 0#32
    · exact .inr ⟨rs1, rs2, .inr rfl, hz, exec_mod_of_zero hz⟩
    · exact .inl ⟨_, _, _, exec_mod_of_ne hz⟩
  | add | sub | and | or | xor | mul | not | neg | inc | dec | lsl | lsr | asl | asr =>
    cases hi
    exact .inl ⟨_, _, _, rfl⟩
  | _ => cases hi

/-- V after an instruction that ends in `SetFlags` and the advance (R150). -/
theorem State.setFlags_advance_v (s : State) (r : Word) (c v : Bool) : (s.setFlags r c v).advance.fr[6] = v := by
  obtain ⟨-, -, -, hv, -⟩ := setFlags_flagsAre s r c v
  exact hv

/-! ### One instruction each -/

/-- Settles O1: the model's sum and flags are those of the exact sum. -/
theorem addWritesSumAndFlags : Obligations.AddWritesSumAndFlags := by
  refine ⟨fun w hop => decode_of_opcode_r hop rfl rfl, fun rd rs1 rs2 s => ⟨_, rfl, ?_⟩⟩
  rw [← BitVec.add_def, ← addCarry_eq]
  exact s.writeResult_effect ..

/-- Settles O2: the model's difference is the exact one modulo 2^32; its flags are written as R152 says. -/
theorem subWritesDifferenceAndFlags : Obligations.SubWritesDifferenceAndFlags := by
  refine ⟨fun w hop => decode_of_opcode_r hop rfl rfl, fun rd rs1 rs2 s => ⟨_, rfl, ?_⟩⟩
  rw [← sub_eq_ofInt]
  exact s.writeResult_effect ..

/-- Settles O3: each of the three is the common ALU end with C and V clear. -/
theorem andOrXorWriteBitwiseResult : Obligations.AndOrXorWriteBitwiseResult := by
  refine ⟨fun w => ⟨?_, ?_, ?_⟩, fun rd rs1 rs2 s => ⟨?_, ?_, ?_⟩⟩
  iterate 3 exact fun hop => decode_of_opcode_r hop rfl rfl
  all_goals exact ⟨_, rfl, s.writeResult_effect ..⟩

/-- Settles O4: the two products agree in the low word, and the model's flags are the bounds on them. -/
theorem mulWritesLowProductAndFlags : Obligations.MulWritesLowProductAndFlags := by
  refine ⟨fun w hop => decode_of_opcode_r hop rfl rfl, fun rd rs1 rs2 s => ⟨_, rfl, ?_, product_eq_signed _ _⟩⟩
  rw [← mulOverflow_eq]
  exact s.writeResult_effect ..

/-- Settles O5: a non-zero divisor does not trap, and each setting of `DIV_SIGNED` has its quotient. -/
theorem divWritesQuotient : Obligations.DivWritesQuotient := by
  intro rd rs1 rs2 s hne
  refine ⟨_, exec_div_of_ne hne, fun hunsigned => ?_, fun hsigned => ?_⟩
  · rw [hunsigned, quotient_unsigned]
    exact s.writeResult_effect ..
  · rw [hsigned, quotient_signed]
    exact s.writeResult_effect ..

/-- Settles O6: a non-zero divisor does not trap, and each setting of `DIV_SIGNED` has its remainder. -/
theorem modWritesRemainder : Obligations.ModWritesRemainder := by
  intro rd rs1 rs2 s hne
  refine ⟨_, exec_mod_of_ne hne, fun hunsigned => ?_, fun hsigned => ?_⟩
  · rw [hunsigned, remainder_unsigned]
    exact s.writeResult_effect ..
  · rw [hsigned, remainder_signed]
    exact s.writeResult_effect ..

/-- Settles O7: both end in the trap entry for DivideByZero(0). -/
theorem divModByZeroTrap : Obligations.DivModByZeroTrap := by
  intro rd rs1 rs2 s hz
  exact ⟨⟨_, exec_div_of_zero hz, s.trigger_trapped ..⟩, ⟨_, exec_mod_of_zero hz, s.trigger_trapped ..⟩⟩

/-- Settles O8: the negation `0 - a` is `2^32 - u(a)` modulo 2^32. -/
theorem notNegWriteResult : Obligations.NotNegWriteResult := by
  refine ⟨fun w => ⟨?_, ?_⟩, fun rd rs1 s => ⟨⟨_, rfl, s.writeResult_effect ..⟩, ⟨_, rfl, ?_⟩⟩⟩
  iterate 2 exact fun hop => decode_of_opcode_r hop rfl rfl
  have hneg : BitVec.ofNat 32 (2 ^ 32 - (s.reg rs1).toNat) = 0#32 - s.reg rs1 := (BitVec.sub_def 0#32 _).symm
  rw [hneg]
  exact s.writeResult_effect ..

/-- Settles O9: adding 1, and adding `2^32 - 1` for the decrement, modulo 2^32. -/
theorem incDecWriteResult : Obligations.IncDecWriteResult := by
  refine ⟨fun w => ⟨?_, ?_⟩, fun rd s => ⟨⟨_, rfl, ?_⟩, ⟨_, rfl, ?_⟩⟩⟩
  iterate 2 exact fun hop => decode_of_opcode_r hop rfl rfl
  · have hinc : BitVec.ofNat 32 ((s.reg rd).toNat + 1) = s.reg rd + 1#32 := (BitVec.add_def _ 1#32).symm
    rw [hinc]
    exact s.writeResult_effect ..
  · have hdec : BitVec.ofNat 32 ((s.reg rd).toNat + (2 ^ 32 - 1)) = s.reg rd - 1#32 := by
      rw [Nat.add_comm]
      exact (BitVec.sub_def _ 1#32).symm
    rw [hdec]
    exact s.writeResult_effect ..

/-! ### Laws across the instructions -/

/-- Settles O35: the common ALU end writes the flags of what it writes to the destination; the other end is the trap. -/
theorem aluFlagsMatchResult : Obligations.AluFlagsMatchResult := by
  intro i s t rd hi h
  rcases exec_alu_cases hi s with ⟨r, c, v, he⟩ | ⟨rs1, rs2, hdiv, hz, he⟩
  · cases h.symm.trans he
    obtain ⟨hreg, ⟨-, hzero, hsign, -⟩, -⟩ := s.writeResult_effect rd r c v
    rw [hreg]
    exact .inl ⟨hzero, hsign⟩
  · cases h.symm.trans he
    exact .inr ⟨rs1, rs2, hdiv, hz, s.trigger_trapped ..⟩

/-- Settles O36: V is the model's overflow formula, which is the bound on the exact result. -/
theorem overflowFlagMeansSignedOverflow : Obligations.OverflowFlagMeansSignedOverflow := by
  intro rd rs1 rs2 s t
  refine ⟨fun h => ?_, fun h => ?_, fun h => ?_⟩ <;> cases h
  · rw [← addOverflow_iff, State.writeResult, State.setFlags_advance_v]
  · rw [← subOverflow_iff, State.writeResult, State.setFlags_advance_v]
  · rw [← subOverflow_iff, State.setFlags_advance_v]

/-- Settles O37: both results fit a word, so they are the exact quotient and remainder. -/
theorem divModReconstructDividend : Obligations.DivModReconstructDividend := by
  intro q r rs1 rs2 s t u hunsigned hne hdiv hmod
  obtain ⟨_, hdiv', hq, -⟩ := divWritesQuotient q rs1 rs2 s hne
  obtain ⟨_, hmod', hr, -⟩ := modWritesRemainder r rs1 rs2 s hne
  cases hdiv.symm.trans hdiv'
  cases hmod.symm.trans hmod'
  obtain ⟨hq, -⟩ := hq hunsigned
  obtain ⟨hr, -⟩ := hr hunsigned
  have hpos : 0 < (s.reg rs2).toNat := Nat.pos_of_ne_zero fun h => hne (BitVec.eq_of_toNat_eq h)
  rw [hq, hr, toNat_ofNat_of_le (Nat.div_le_self _ _), toNat_ofNat_of_le (Nat.sub_le _ _), ← Nat.mod_eq_sub]
  exact ⟨(Nat.div_add_mod _ _).symm, Nat.mod_lt _ hpos⟩

end Sys2Proof.Machine
end

section
/-! SUPPORT. The proofs about shifts (spec/42_shift.md): the model's results and carries in the terms of the claims, and
the obligations O10 to O12, each the common end of the ALU instructions with those. The lemmas hold for every amount,
not only the 0 to 63 of the field (R170). -/

namespace Sys2Proof.Machine

/-! ### Results and carries in exact arithmetic -/

theorem bne_zero_eq (n : Nat) : (n != 0) = decide (1 ≤ n) := by
  rw [Bool.eq_iff_iff, bne_iff_ne, decide_eq_true_eq, Nat.one_le_iff_ne_zero]

/-- The model's guard on the amount, "not 0, and at most 32", in the form of the claims. -/
theorem amountGuard_eq (n : Nat) (b : Bool) :
    (n != 0 && (decide (n ≤ 32) && b)) = (decide (1 ≤ n ∧ n ≤ 32) && b) := by
  rw [bne_zero_eq, Bool.decide_and, Bool.and_assoc]

theorem shiftLeft_eq (a : Word) (n : Nat) : shiftLeft a n = BitVec.ofNat 32 (a.toNat * 2 ^ n) := by
  rw [shiftLeft, Nat.shiftLeft_eq]

/-- Bit 32 of the unbounded left shift is bit `32 - n` of the operand (R171). -/
theorem shiftLeftCarry_eq (a : Word) (n : Nat) :
    shiftLeftCarry a n = (decide (1 ≤ n ∧ n ≤ 32) && a.getLsbD (32 - n)) := by
  rw [shiftLeftCarry, Nat.testBit_shiftLeft, BitVec.testBit_toNat]
  exact amountGuard_eq n _

/-- The last bit a logical right shift moves out is bit `n - 1` of the operand (R172). -/
theorem shiftRightCarry_eq (a : Word) (n : Nat) :
    shiftRightCarry a n = (decide (1 ≤ n ∧ n ≤ 32) && a.getLsbD (n - 1)) :=
  amountGuard_eq n _

/-- `2 ^ n` is positive, so that the floor of the claim and the model's floor division agree (R174). -/
theorem arithShiftRight_eq (a : Word) (n : Nat) : arithShiftRight a n = BitVec.ofInt 32 (a.toInt / 2 ^ n) := by
  rw [arithShiftRight, Int.fdiv_eq_ediv_of_nonneg _ (by positivity)]

/-- The last bit an arithmetic right shift moves out; the index stops at the sign bit (R174). -/
theorem arithRightCarry_eq (a : Word) (n : Nat) :
    arithRightCarry a n = (decide (1 ≤ n) && a.getLsbD (min (n - 1) 31)) := by
  have hbit : (if n ≤ 32 then a.getLsbD (n - 1) else a[31]) = a.getLsbD (min (n - 1) 31) := by
    by_cases hn : n ≤ 32
    · rw [if_pos hn, Nat.min_eq_left (by omega)]
    · rw [if_neg hn, Nat.min_eq_right (by omega), BitVec.getLsbD_eq_getElem]
  rw [arithRightCarry, hbit, bne_zero_eq]

/-! ### The instructions -/

/-- LSL and ASL write the same result and flags (R173). -/
theorem State.leftShift_effect (s : State) (rd : RegNum) (a : Word) (n : Nat) :
    AluEffect s (s.writeResult rd (shiftLeft a n) (shiftLeftCarry a n) false) rd (BitVec.ofNat 32 (a.toNat * 2 ^ n))
      (decide (1 ≤ n ∧ n ≤ 32) && a.getLsbD (32 - n)) false := by
  rw [← shiftLeft_eq, ← shiftLeftCarry_eq]
  exact s.writeResult_effect ..

/-- Settles O10: both are the common left shift. -/
theorem lslAslShiftLeft : Obligations.LslAslShiftLeft := by
  refine ⟨fun w => ⟨?_, ?_⟩, fun rd rs1 n s => ⟨?_, ?_⟩⟩
  iterate 2 exact fun hop => decode_of_opcode_r hop rfl rfl
  all_goals exact ⟨_, rfl, s.leftShift_effect ..⟩

/-- Settles O11: the model's result is the floor, and its carry is bit `n - 1` while there is one. -/
theorem lsrShiftsRight : Obligations.LsrShiftsRight := by
  refine ⟨fun w hop => decode_of_opcode_r hop rfl rfl, fun rd rs1 n s => ⟨_, rfl, ?_⟩⟩
  rw [← shiftRightCarry_eq]
  exact s.writeResult_effect ..

/-- Settles O12: the model's result is the floor of the signed operand, and its carry stops at the sign bit. -/
theorem asrShiftsWithSign : Obligations.AsrShiftsWithSign := by
  refine ⟨fun w hop => decode_of_opcode_r hop rfl rfl, fun rd rs1 n s => ⟨_, rfl, ?_⟩⟩
  rw [← arithShiftRight_eq, ← arithRightCarry_eq]
  exact s.writeResult_effect ..

end Sys2Proof.Machine
end

section
/-! SUPPORT. The proofs about register move, compare and extension (spec/43_move_compare.md): what the flags of a
difference say of its operands, the extensions as masks, and the obligations O13 to O15 read off those. -/

namespace Sys2Proof.Machine

/-! ### Decoding an I-type word -/

/-- An opcode of the I class selects the instruction its map gives for the fields (R103, R110). -/
theorem decode_of_opcode_i {w : InstrWord} {op : BitVec 6} {i : Instr} (hop : w.extractLsb' 58 6 = op)
    (hclass : Format.ofOpcode op.toNat = some .i) (hi : instrI op (rdOf w) (rs1Of w) (immOf w) = .ok i) :
    decode w = .ok i := by
  obtain rfl : opcodeOf w = op := hop
  rw [decode_i hclass, hi]

/-! ### The flags of a difference (R181) -/

/-- The sign bit of a difference is the sign of the exact difference reduced to the signed 32-bit range. -/
theorem sub_sign_iff (a b : Word) : (a - b)[31] = true ↔ (a.toInt - b.toInt).bmod (2 ^ 32) < 0 := by
  have hmsb : (a - b)[31] = (a - b).msb := (BitVec.msb_eq_getLsbD_last (a - b)).symm
  rw [hmsb, BitVec.msb_eq_toInt, decide_eq_true_eq, BitVec.toInt_sub]

/-- Without signed overflow the sign bit is the sign of the exact difference; an overflowing difference is reduced by
2^32 one way or the other, which turns the sign over. -/
theorem sub_sign_ne_overflow_iff (a b : Word) : (a - b)[31] ≠ subOverflow a b ↔ a.toInt < b.toInt := by
  rw [Ne, Bool.eq_iff_iff, sub_sign_iff, subOverflow_iff, Int.bmod_def]
  have ha := a.toInt_lt
  have ha' := a.le_toInt
  have hb := b.toInt_lt
  have hb' := b.le_toInt
  omega

/-- The end of CMP: the flags, then the advance, and no register written (R144, R181). -/
theorem State.setFlags_advance_effect (s : State) (r : Word) (c v : Bool) :
    FlagsAre (s.setFlags r c v).advance c (decide (r = 0#32)) (r[31]) v ∧
    (s.setFlags r c v).advance.i0 = s.i0 + 8#32 ∧ RegsKeptBut s (s.setFlags r c v).advance [] ∧
    SpecialsKeptBut s (s.setFlags r c v).advance [.i0, .fr] ∧ MemoryKept s (s.setFlags r c v).advance ∧
    OutsideKept s (s.setFlags r c v).advance := by
  refine ⟨setFlags_flagsAre s r c v, rfl, fun k _ => rfl, fun x hx => ?_, fun a => rfl, rfl, rfl, rfl, rfl, rfl⟩
  cases x with
  | i0 | fr => simp at hx
  | _ => rfl

/-! ### Extensions as masks (R182, R183) -/

/-- The low `n` bits set: the source bits of an extension. -/
def lowMask (n : Nat) : Word := (BitVec.allOnes n).setWidth 32

theorem getElem_lowMask (n : Nat) {k : Nat} (hk : k < 32) : (lowMask n)[k] = decide (k < n) := by
  rw [lowMask, BitVec.getElem_setWidth, BitVec.getLsbD_allOnes]

theorem zeroExtend_low_eq (a : Word) (n : Nat) : (a.setWidth n).setWidth 32 = a &&& lowMask n := by
  ext k hk
  simp [getElem_lowMask, hk, Bool.and_comm]

/-- Below bit `n` the sign extension is the source, from there on it is copies of bit `n - 1`. -/
theorem signExtend_low_eq (a : Word) {n : Nat} (hn : 0 < n) : (a.setWidth n).signExtend 32 =
    if a.getLsbD (n - 1) = true then (a &&& lowMask n) ||| ~~~ lowMask n else a &&& lowMask n := by
  ext k hk
  have hmsb : (a.setWidth n).msb = a.getLsbD (n - 1) := by simp [BitVec.msb_setWidth, hn]
  rw [BitVec.getElem_signExtend, hmsb]
  by_cases hkn : k < n <;> cases a.getLsbD (n - 1) <;> simp [getElem_lowMask, hkn, hk]

theorem zeroExtended_bits16 (a : Word) : zeroExtended .bits16 a = a &&& 0xFFFF#32 := zeroExtend_low_eq a 16

theorem zeroExtended_bits8 (a : Word) : zeroExtended .bits8 a = a &&& 0xFF#32 := zeroExtend_low_eq a 8

theorem signExtended_bits16 (a : Word) : signExtended .bits16 a =
    if a[15] = true then (a &&& 0xFFFF#32) ||| 0xFFFF0000#32 else a &&& 0xFFFF#32 :=
  signExtend_low_eq a (n := 16) (by decide)

theorem signExtended_bits8 (a : Word) : signExtended .bits8 a =
    if a[7] = true then (a &&& 0xFF#32) ||| 0xFFFFFF00#32 else a &&& 0xFF#32 :=
  signExtend_low_eq a (n := 8) (by decide)

/-! ### The instructions -/

/-- An instruction that ends in a register write and the advance has the effect of a move of the value written. -/
theorem exec_moveEffect {i : Instr} {s : State} {rd : RegNum} {r r' : Word}
    (hexec : exec i s = .next (s.setReg rd r).advance) (hr : r = r') : ∃ t, exec i s = .next t ∧ MoveEffect s t rd r' :=
  ⟨_, hexec, hr ▸ s.moveTo_effect rd r⟩

/-- Settles O13: a register write and the advance. -/
theorem movCopiesRegister : Obligations.MovCopiesRegister :=
  ⟨fun _ hop => decode_of_opcode_i hop rfl rfl, fun _ _ _ => exec_moveEffect rfl rfl⟩

/-- Settles O14: the three orders are read off the flags of the difference; the signed one is
`sub_sign_ne_overflow_iff`. -/
theorem cmpWritesFlagsOnly : Obligations.CmpWritesFlagsOnly := by
  refine ⟨fun _ hop => decode_of_opcode_i hop rfl rfl, fun rd rs1 s => ⟨_, rfl, ?_⟩⟩
  obtain ⟨hflags, hframe⟩ := s.setFlags_advance_effect (s.reg rs1 - s.reg rd) (subBorrow (s.reg rs1) (s.reg rd))
    (subOverflow (s.reg rs1) (s.reg rd))
  have hzero : s.reg rs1 - s.reg rd = 0#32 ↔ s.reg rs1 = s.reg rd := sub_eq_zero
  simp only [hzero] at hflags
  refine ⟨hflags, ?_, ?_, ?_, hframe⟩ <;> obtain ⟨hc, hz, hs, hv, -⟩ := hflags
  · rw [hz, decide_eq_true_eq, eq_comm]
  · rw [hc, subBorrow, decide_eq_true_eq]
  · rw [hs, hv, sub_sign_ne_overflow_iff]

/-- Settles O15: each extension is written to the register, and at either width it is its mask expression. -/
theorem sextZextExtendLowBits : Obligations.SextZextExtendLowBits := by
  refine ⟨fun w => ⟨?_, ?_⟩, fun rd rs1 s => ⟨fun hwidth => ⟨?_, ?_⟩, fun hwidth => ⟨?_, ?_⟩⟩⟩
  iterate 2 exact fun hop => decode_of_opcode_i hop rfl rfl
  · exact exec_moveEffect rfl (by rw [hwidth, signExtended_bits16])
  · exact exec_moveEffect rfl (by rw [hwidth, zeroExtended_bits16])
  · exact exec_moveEffect rfl (by rw [hwidth, signExtended_bits8])
  · exact exec_moveEffect rfl (by rw [hwidth, zeroExtended_bits8])

end Sys2Proof.Machine
end

section
/-! SUPPORT. The proofs about loads, stores and the stack (spec/44_load_store_stack.md): what the special registers read
as after the writes these instructions make, the next state of LDR, STR, PUSH and POP when the access completes, and
the obligations O16 to O19 and O38, each read off those. -/

namespace Sys2Proof.Machine

/-! ### The special registers after the advance and after a move of `S0` -/

theorem State.readSpecial_advance (s : State) {r : SpecialReg} (h : r ≠ .i0) :
    s.advance.readSpecial r = s.readSpecial r := by
  cases r with
  | i0 => exact absurd rfl h
  | _ => rfl

theorem State.readSpecial_setS0 (s : State) (v : Word) {r : SpecialReg} (h : r ≠ .s0) :
    (s.setS0 v).readSpecial r = s.readSpecial r := by
  cases r with
  | s0 => exact absurd rfl h
  | _ => rfl

theorem SpecialsKeptBut.advance {s t : State} {written : List SpecialReg} (h : SpecialsKeptBut s t written)
    (hi0 : .i0 ∈ written) : SpecialsKeptBut s t.advance written := fun r hr => by
  rw [t.readSpecial_advance (ne_of_mem_of_not_mem hi0 hr).symm, h r hr]

theorem SpecialsKeptBut.setS0 {s t : State} {written : List SpecialReg} (h : SpecialsKeptBut s t written)
    (hs0 : .s0 ∈ written) (v : Word) : SpecialsKeptBut s (t.setS0 v) written := fun r hr => by
  rw [t.readSpecial_setS0 v (ne_of_mem_of_not_mem hs0 hr).symm, h r hr]

/-- A register write is no write of a special register. -/
theorem State.setReg_specialsKept (s : State) (k : RegNum) (v : Word) (written : List SpecialReg) :
    SpecialsKeptBut s (s.setReg k v) written := fun r _ => by cases r <;> rfl

/-- A memory write is no write of a special register. -/
theorem State.setMem_specialsKept (s : State) (m : Memory) (written : List SpecialReg) :
    SpecialsKeptBut s (s.setMem m) written := fun r _ => by cases r <;> rfl

theorem State.setReg_regsKeptBut (s : State) (k : RegNum) (v : Word) : RegsKeptBut s (s.setReg k v) [k] :=
  fun _ hj => s.reg_setReg_ne v (List.ne_of_not_mem_cons hj)

/-! ### The next state when the access completes (R80, R81) -/

theorem exec_ldr_done {s : State} {rs1 : RegNum} {imm pde pte pa : Word}
    (hmaps : s.Maps (s.effectiveAddress rs1 imm) pde pte pa) (hread : s.cfg.checkReads = false ∨ s.MayAccess pde pte)
    (hpa : pa.toNat + 4 ≤ s.cfg.memSize) (rd : RegNum) :
    exec (.ldr rd rs1 imm) s = .next (s.setReg rd (wordAt s pa.toNat)).advance := by
  rw [exec, execLdr, State.memRead_done hmaps hread hpa, State.conclude_done]

theorem exec_str_done {s : State} {rs1 : RegNum} {imm pde pte pa : Word}
    (hmaps : s.Maps (s.effectiveAddress rs1 imm) pde pte pa) (hmay : s.MayAccess pde pte)
    (hpa : pa.toNat + 4 ≤ s.cfg.memSize) (rd : RegNum) :
    exec (.str rd rs1 imm) s = .next (s.setMem (Memory.writeWord s.mem pa.toNat (s.reg rd))).advance := by
  rw [exec, execStr, State.memWrite_done _ hmaps hmay hpa, State.conclude_done]

theorem exec_push_done {s : State} {pde pte pa : Word} (hmaps : s.Maps (s.s0 - 4#32) pde pte pa)
    (hmay : s.MayAccess pde pte) (hpa : pa.toNat + 4 ≤ s.cfg.memSize) (rd : RegNum) :
    exec (.push rd) s =
      .next ((s.setMem (Memory.writeWord s.mem pa.toNat (s.reg rd))).setS0 (s.s0 - 4#32)).advance := by
  rw [exec, execPush, State.pushSlot, State.memWrite_done _ hmaps hmay hpa, State.conclude_done]

theorem exec_pop_done {s : State} {pde pte pa : Word} (hmaps : s.Maps s.s0 pde pte pa)
    (hread : s.cfg.checkReads = false ∨ s.MayAccess pde pte) (hpa : pa.toNat + 4 ≤ s.cfg.memSize) (rd : RegNum) :
    exec (.pop rd) s = .next ((s.setReg rd (wordAt s pa.toNat)).setS0 (s.s0 + 4#32)).advance := by
  rw [exec, execPop, State.memRead_done hmaps hread hpa, State.conclude_done, State.popped]

/-! ### The instructions -/

/-- Settles O16: the word read is moved to the register. -/
theorem ldrLoadsMappedWord : Obligations.LdrLoadsMappedWord :=
  fun rd _ _ _ _ _ _ hmaps hread hpa => exec_moveEffect (exec_ldr_done hmaps hread hpa rd) rfl

/-- Settles O17: the word is stored at the mapped address, and `I0` alone is written beside memory. -/
theorem strStoresMappedWord : Obligations.StrStoresMappedWord := by
  intro rd rs1 imm s pde pte pa hmaps hmay hpa
  refine ⟨_, exec_str_done hmaps hmay hpa rd, StoreEffect.of_mem rfl, rfl, fun _ _ => rfl, ?_, rfl, rfl, rfl, rfl, rfl⟩
  exact (s.setMem_specialsKept _ _).advance (by simp)

/-- Settles O18: the word is stored in the slot below `S0`, which then becomes `S0`. -/
theorem pushStoresBelowStackPointer : Obligations.PushStoresBelowStackPointer := by
  intro rd s pde pte pa hmaps hmay hpa
  refine ⟨_, exec_push_done hmaps hmay hpa rd, StoreEffect.of_mem rfl, rfl, rfl, fun _ _ => rfl, ?_,
    rfl, rfl, rfl, rfl, rfl⟩
  exact ((s.setMem_specialsKept _ _).setS0 (by simp) _).advance (by simp)

/-- Settles O19: the word at `S0` is moved to the register, and `S0` raised. -/
theorem popLoadsAndRaisesStackPointer : Obligations.PopLoadsAndRaisesStackPointer := by
  intro rd s pde pte pa hmaps hread hpa
  refine ⟨_, exec_pop_done hmaps hread hpa rd, s.reg_setReg_same .., rfl, rfl, s.setReg_regsKeptBut _ _, ?_,
    fun _ => rfl, rfl, rfl, rfl, rfl, rfl⟩
  exact ((s.setReg_specialsKept _ _ _).setS0 (by simp) _).advance (by simp)

/-- Settles O38: the pop reads the slot the push stored into, through the same mapping and with the same rights, and
raises `S0` by what the push lowered it. -/
theorem pushThenPopCopies : Obligations.PushThenPopCopies := by
  intro x y s t pde pte pa hwf hmaps hmay hpa hpush hmaps'
  obtain rfl := Host.Outcome.next.inj ((exec_push_done hmaps hmay hpa x).symm.trans hpush)
  refine ⟨_, exec_pop_done hmaps' (.inr hmay) hpa y, ?_, ?_, ?_⟩
  · have hslot : Memory.readWord (Memory.writeWord s.mem pa.toNat (s.reg x)) pa.toNat = s.reg x :=
      Memory.readWord_writeWord_same hwf ..
    exact (State.reg_setReg_same ..).trans hslot
  · exact BitVec.sub_add_cancel ..
  · exact BitVec.add_assoc ..

end Sys2Proof.Machine
end

section
/-! SUPPORT. The proofs about control transfer, NOP and HLT (spec/45_control.md): a write of `I0` and its frame, the next
state of each branch and of CALL and RET when the access completes, and the obligations O23 to O27 and O39, each read
off those. -/

namespace Sys2Proof.Machine

/-! ### Decoding a J-type word -/

/-- An opcode of the J class selects the instruction its map gives for the address (R104, R110). -/
theorem decode_of_opcode_j {w : InstrWord} {op : BitVec 6} {i : Instr} (hop : w.extractLsb' 58 6 = op)
    (hclass : Format.ofOpcode op.toNat = some .j) (hi : instrJ op (addressOf w) = .ok i) : decode w = .ok i := by
  obtain rfl : opcodeOf w = op := hop
  rw [decode_j hclass, hi]

/-! ### A write of `I0` -/

theorem State.readSpecial_setPc (s : State) (v : Word) {r : SpecialReg} (h : r ≠ .i0) :
    (s.setPc v).readSpecial r = s.readSpecial r := by
  cases r with
  | i0 => exact absurd rfl h
  | _ => rfl

theorem SpecialsKeptBut.setPc {s t : State} {written : List SpecialReg} (h : SpecialsKeptBut s t written)
    (hi0 : .i0 ∈ written) (v : Word) : SpecialsKeptBut s (t.setPc v) written := fun r hr => by
  rw [t.readSpecial_setPc v (ne_of_mem_of_not_mem hi0 hr).symm, h r hr]

theorem SpecialsKeptBut.refl (s : State) (written : List SpecialReg) : SpecialsKeptBut s s written := fun _ _ => rfl

/-- The advance is a write of `I0` (R144). -/
theorem State.advance_eq_setPc (s : State) : s.advance = s.setPc (s.i0 + 8#32) := rfl

/-- An instruction that ends in a write of `I0` changes nothing else. -/
theorem exec_setPc_effect {i : Instr} {s : State} {v : Word} (hexec : exec i s = .next (s.setPc v)) :
    ∃ t, exec i s = .next t ∧ t.i0 = v ∧
      RegsKeptBut s t [] ∧ SpecialsKeptBut s t [.i0] ∧ MemoryKept s t ∧ OutsideKept s t :=
  ⟨_, hexec, rfl, fun _ _ => rfl, (SpecialsKeptBut.refl s _).setPc (by simp) v, fun _ => rfl, rfl, rfl, rfl, rfl, rfl⟩

/-! ### The halt -/

/-- The flag `halted` is no special register. -/
theorem State.halt_specialsKept (s : State) (written : List SpecialReg) :
    SpecialsKeptBut s { s with halted := true } written := fun r _ => by cases r <;> rfl

/-- The step that sets `halted` answers Halted, unless it stopped the machine (R146). -/
theorem State.stepAnswer_of_halted {s : State} (hhalt : s.halted = true) (herr : s.hostError = false) :
    s.stepAnswer = .halted := by
  simp [State.stepAnswer, hhalt, herr]

/-! ### The next state of each instruction -/

/-- BEQ writes `I0` in either case, by Z (R200). -/
theorem exec_beq (imm : Word) (s : State) :
    exec (.beq imm) s = .next (s.setPc (if s.fr[1] = true then s.i0 + imm else s.i0 + 8#32)) := by
  rw [exec, execBeq, State.flagZ, State.branchTarget, State.advance_eq_setPc]
  split <;> rfl

/-- BNE writes `I0` in either case, by Z (R201). -/
theorem exec_bne (imm : Word) (s : State) :
    exec (.bne imm) s = .next (s.setPc (if s.fr[1] = true then s.i0 + 8#32 else s.i0 + imm)) := by
  rw [exec, execBne, State.flagZ, State.branchTarget, State.advance_eq_setPc]
  cases s.fr[1] <;> rfl

theorem exec_call_done {s : State} {pde pte pa : Word} (hmaps : s.Maps (s.s0 - 4#32) pde pte pa)
    (hmay : s.MayAccess pde pte) (hpa : pa.toNat + 4 ≤ s.cfg.memSize) (address : Word) :
    exec (.call address) s =
      .next (((s.setMem (Memory.writeWord s.mem pa.toNat (s.i0 + 8#32))).setS0 (s.s0 - 4#32)).setPc address) := by
  rw [exec, execCall, State.pushSlot, State.nextPc, State.memWrite_done _ hmaps hmay hpa, State.conclude_done]

theorem exec_ret_done {s : State} {pde pte pa : Word} (hmaps : s.Maps s.s0 pde pte pa)
    (hread : s.cfg.checkReads = false ∨ s.MayAccess pde pte) (hpa : pa.toNat + 4 ≤ s.cfg.memSize) :
    exec .ret s = .next ((s.setS0 (s.s0 + 4#32)).setPc (wordAt s pa.toNat)) := by
  rw [exec, execRet, State.memRead_done hmaps hread hpa, State.conclude_done, State.popped]

/-! ### The instructions -/

/-- Settles O23: both end in a write of `I0`, to the target or past the instruction. -/
theorem beqBneBranchOnZero : Obligations.BeqBneBranchOnZero := by
  refine ⟨fun w => ⟨?_, ?_⟩, fun imm s => ⟨exec_setPc_effect (exec_beq imm s), exec_setPc_effect (exec_bne imm s)⟩⟩
  iterate 2 exact fun hop => decode_of_opcode_i hop rfl rfl

/-- Settles O24: JMP is a write of `I0`; JAL makes it after the write of the link register. -/
theorem jmpJalTransfer : Obligations.JmpJalTransfer := by
  refine ⟨fun w => ⟨?_, ?_⟩, fun address s => ⟨exec_setPc_effect rfl, _, rfl, rfl, ?_⟩⟩
  iterate 2 exact fun hop => decode_of_opcode_j hop rfl rfl
  refine ⟨s.reg_setReg_same .., s.setReg_regsKeptBut _ _, ?_, fun _ => rfl, rfl, rfl, rfl, rfl, rfl⟩
  exact (s.setReg_specialsKept _ _ _).setPc (by simp) _

/-- Settles O25: the return address is stored in the slot below `S0`, which then becomes `S0`. -/
theorem callPushesReturnAddress : Obligations.CallPushesReturnAddress := by
  intro address s pde pte pa hmaps hmay hpa
  refine ⟨_, exec_call_done hmaps hmay hpa address, StoreEffect.of_mem rfl, rfl, rfl, fun _ _ => rfl, ?_,
    rfl, rfl, rfl, rfl, rfl⟩
  exact ((s.setMem_specialsKept _ _).setS0 (by simp) _).setPc (by simp) _

/-- Settles O26: the word at `S0` is written to `I0`, and `S0` raised. -/
theorem retPopsProgramCounter : Obligations.RetPopsProgramCounter := by
  intro s pde pte pa hmaps hread hpa
  refine ⟨_, exec_ret_done hmaps hread hpa, rfl, rfl, fun _ _ => rfl, ?_, fun _ => rfl, rfl, rfl, rfl, rfl, rfl⟩
  exact ((SpecialsKeptBut.refl s _).setS0 (by simp) _).setPc (by simp) _

/-- Settles O27: NOP is the advance alone; HLT sets `halted` before it, which makes its state a terminal one. -/
theorem nopHltAdvance : Obligations.NopHltAdvance := by
  refine ⟨fun w => ⟨?_, ?_⟩, fun s => ⟨exec_setPc_effect rfl, _, rfl, rfl, rfl, rfl, fun _ _ => rfl, ?_,
    fun _ => rfl, rfl, rfl, rfl, fun hclear => ⟨?_, ?_⟩⟩⟩
  iterate 2 exact fun hop => decode_of_opcode_j hop rfl rfl
  · exact (s.halt_specialsKept _).advance (by simp)
  · exact State.stepAnswer_of_halted rfl hclear
  · exact step_ne_next_of_terminal (.inl rfl)

/-- Settles O39: the return reads the slot the call stored the return address into, through the same mapping and with
the same rights, and raises `S0` by what the call lowered it. -/
theorem callThenRetReturns : Obligations.CallThenRetReturns := by
  intro address s t pde pte pa hwf hmaps hmay hpa hcall hmaps'
  obtain rfl := Host.Outcome.next.inj ((exec_call_done hmaps hmay hpa address).symm.trans hcall)
  refine ⟨_, exec_ret_done hmaps' (.inr hmay) hpa, ?_, ?_⟩
  · exact Memory.readWord_writeWord_same hwf ..
  · exact BitVec.sub_add_cancel ..

end Sys2Proof.Machine
end

section
/-! SUPPORT. The proofs about the system instructions (spec/46_system.md): the number of each special register and what
a write of it leaves in the list of all 14, the frame of the port bus, and the obligations O28 to O34, each read off
those. -/

namespace Sys2Proof.Machine

/-! ### The special registers by number (R30) -/

/-- The number of a special register (R30). -/
def SpecialReg.number : SpecialReg → Nat
  | .i0 => 0
  | .s0 => 1
  | .s1 => 2
  | .fr => 3
  | .ivtr => 4
  | .ie0 => 5
  | .ie1 => 6
  | .ie2 => 7
  | .ie3 => 8
  | .ie4 => 9
  | .tpdr => 10
  | .tsp => 11
  | .prr => 12
  | .msr => 13

/-- The number that names a register is that register's number. -/
theorem toNat_of_specialOf {n : RegNum} {r : SpecialReg} (h : specialOf n = some r) : n.toNat = r.number := by
  revert n
  cases r <;> decide

/-- A value stands at the place `n` of the list of all 14 when `n` names a register that reads as it. -/
theorem exists_specialOf_of_get {s : State} {n : RegNum} {v : Word} (h : (specialsInOrder s)[n.toNat]? = some v) :
    ∃ r, specialOf n = some r ∧ s.readSpecial r = v := by
  rwa [specialsInOrder_get, Option.map_eq_some_iff] at h

theorem specialOf_eq_none {n : RegNum} (h : 14 ≤ n.toNat) : specialOf n = none := by
  rw [← Option.not_isSome_iff_eq_none, specialOf_isSome, decide_eq_true_eq]
  exact Nat.not_lt.mpr h

/-! ### A write of a special register (R31, R228) -/

/-- What a write leaves in the register its number names; the other 13 keep their values. -/
theorem State.specialsInOrder_writeSpecial (s : State) (r : SpecialReg) (v : Word) :
    specialsInOrder (s.writeSpecial r v) =
      (specialsInOrder s).set r.number (specialStored r.number (s.readSpecial r) v) := by
  have hbyte : (v.setWidth 8).setWidth 32 = v &&& 0xFF#32 := zeroExtend_low_eq v 8
  cases r with
  | fr =>
    have hflags : (v.setWidth 8 &&& flagMask).setWidth 32 = v &&& 0x47#32 := by
      rw [BitVec.setWidth_and, hbyte, BitVec.and_assoc]
      rfl
    exact congrArg (fun x => (specialsInOrder s).set 3 x) hflags
  | ie0 => exact congrArg (fun x => (specialsInOrder s).set 5 x) hbyte
  | ie3 => exact congrArg (fun x => (specialsInOrder s).set 8 x) hbyte
  | _ => rfl

/-- A write of a special register is no write of a general register, of memory or of anything outside. -/
theorem State.writeSpecial_frame (s : State) (r : SpecialReg) (v : Word) :
    RegsKeptBut s (s.writeSpecial r v) [] ∧ MemoryKept s (s.writeSpecial r v) ∧
    OutsideKept s (s.writeSpecial r v) := by
  cases r <;> exact ⟨fun _ _ => rfl, fun _ => rfl, rfl, rfl, rfl, rfl, rfl⟩

/-- The advance is seen in the first of the 14 special registers. -/
theorem State.specialsInOrder_advance (s : State) :
    specialsInOrder s.advance = (specialsInOrder s).modify 0 (· + 8#32) := rfl

/-- The trap return writes the four registers it restores (R222). -/
theorem State.trapReturn_specialsKept (s : State) : SpecialsKeptBut s s.trapReturn [.i0, .s0, .fr, .msr] := by
  intro r hr
  cases r with
  | i0 | s0 | fr | msr => simp at hr
  | _ => rfl

/-! ### The port bus (R90) -/

theorem State.portOf_eq (s : State) (rd : RegNum) : s.portOf rd = (s.reg rd).extractLsb' 0 16 :=
  BitVec.setWidth_eq_extractLsb' (by decide)

/-- Only the environment's side of the state is written. -/
def EnvironmentOnly (s t : State) : Prop := t = { s with ioAnswers := t.ioAnswers, ioLog := t.ioLog }

theorem State.ioWrite_environmentOnly (s : State) (p : Port) (v : Word) : EnvironmentOnly s (s.ioWrite p v) := by
  unfold State.ioWrite
  split <;> rfl

theorem State.ioReadDone_environmentOnly (s : State) (p : Port) : EnvironmentOnly s (s.ioReadDone p) := by
  unfold State.ioReadDone
  split <;> rfl

theorem EnvironmentOnly.frame {s t : State} (h : EnvironmentOnly s t) :
    (∀ k, t.reg k = s.reg k) ∧ (∀ r, t.readSpecial r = s.readSpecial r) ∧ MemoryKept s t ∧
    t.halted = s.halted ∧ t.hostError = s.hostError ∧ t.cfg = s.cfg := by
  rw [h]
  exact ⟨fun _ => rfl, fun r => by cases r <;> rfl, fun _ => rfl, rfl, rfl, rfl⟩

theorem State.ioWrite_ioLog (s : State) (p : Port) (v : Word) :
    (s.ioWrite p v).ioLog = if p ∈ s.cfg.ioMapped then s.ioLog ++ [.write p v] else s.ioLog := by
  by_cases hp : p ∈ s.cfg.ioMapped
  · obtain ⟨-, -, hwrite⟩ := State.io_mapped hp v
    rw [hwrite, if_pos hp]
  · obtain ⟨-, -, hwrite⟩ := State.io_unmapped hp v
    rw [hwrite, if_neg hp]

theorem State.ioWrite_ioAnswers (s : State) (p : Port) (v : Word) : (s.ioWrite p v).ioAnswers = s.ioAnswers := by
  unfold State.ioWrite
  split <;> rfl

/-- A device answers what the environment has ready next (log 3). -/
theorem State.deviceAnswer_of_mem_head? {s : State} {a : Word} (h : a ∈ s.ioAnswers.head?) (p : Port) :
    s.deviceAnswer p = a := by
  obtain ⟨rest, hready⟩ := List.head?_eq_some_iff.mp h
  rw [State.deviceAnswer, hready]

/-! ### The next state of each instruction -/

theorem exec_swi (imm : Word) (s : State) : exec (.swi imm) s = .next (s.trigger (imm.extractLsb' 0 8) 0#8) := by
  rw [← BitVec.setWidth_eq_extractLsb' (by decide)]
  rfl

/-- The port is the low half of the register (R230). -/
theorem exec_out (rd rs1 : RegNum) (s : State) :
    exec (.out rd rs1) s = .next (s.ioWrite ((s.reg rd).extractLsb' 0 16) (s.reg rs1)).advance := by
  rw [exec, execOut, State.portOf_eq]

/-- The port is the low half of the register (R231). -/
theorem exec_inp (rd rs1 : RegNum) (s : State) :
    exec (.inp rd rs1) s = .next ((s.ioReadDone ((s.reg rd).extractLsb' 0 16)).setReg rs1
      (s.ioRead ((s.reg rd).extractLsb' 0 16))).advance := by
  rw [exec, execIn, State.portOf_eq]

theorem exec_mfs_of_specialOf {n : RegNum} {r : SpecialReg} (h : specialOf n = some r) (rd : RegNum) (s : State) :
    exec (.mfs rd n) s = .next (s.setReg rd (s.readSpecial r)).advance := by
  rw [exec, execMfs, specialAccess, h, State.conclude_done]

theorem exec_mts_of_specialOf {n : RegNum} {r : SpecialReg} (h : specialOf n = some r) (rs : RegNum) (s : State) :
    exec (.mts n rs) s = .next (s.writeSpecial r (s.reg rs)).advance := by
  rw [exec, execMts, specialAccess, h, State.conclude_done]

theorem exec_mfs_mts_of_reserved {n : RegNum} (h : specialOf n = none) (k : RegNum) (s : State) :
    exec (.mfs k n) s = .next (s.trigger 0x03#8 6#8) ∧ exec (.mts n k) s = .next (s.trigger 0x03#8 6#8) := by
  rw [exec, exec, execMfs, execMts, specialAccess, h, State.conclude_reservedSpecial]
  exact ⟨rfl, rfl⟩

/-! ### The instructions -/

/-- Settles O28: `SWI` is the trap entry of its low byte, taken or not. -/
theorem swiEntersTrap : Obligations.SwiEntersTrap :=
  ⟨fun _ hop => decode_of_opcode_i hop rfl rfl,
    fun imm s hin => ⟨_, exec_swi imm s, (s.trigger_trapped _ _).left hin⟩,
    fun imm s hout => ⟨_, exec_swi imm s, (s.trigger_trapped _ _).right hout⟩⟩

/-- Settles O29: `IRET` is the trap return. -/
theorem iretRestoresContext : Obligations.IretRestoresContext :=
  ⟨fun _ hop => decode_of_opcode_j hop rfl rfl, fun s => ⟨_, rfl, rfl, rfl, rfl, rfl, fun _ _ => rfl,
    s.trapReturn_specialsKept, fun _ => rfl, rfl, rfl, rfl, rfl, rfl⟩⟩

/-- Settles O30: the register the number names is moved to the general register. -/
theorem mfsReadsSpecial : Obligations.MfsReadsSpecial := by
  refine ⟨fun _ hop => decode_of_opcode_i hop rfl rfl, fun rd spec s v hv => ?_⟩
  obtain ⟨r, hr, hread⟩ := exists_specialOf_of_get hv
  exact exec_moveEffect (exec_mfs_of_specialOf hr rd s) hread

/-- Settles O31: the write of the register the number names changes its place in the list, and the advance, which comes
after it, the first. -/
theorem mtsWritesSpecial : Obligations.MtsWritesSpecial := by
  refine ⟨fun _ hop => decode_of_opcode_i hop rfl rfl, fun spec rs s old hold => ?_⟩
  obtain ⟨r, hr, hread⟩ := exists_specialOf_of_get hold
  refine ⟨_, exec_mts_of_specialOf hr rs s, ?_, s.writeSpecial_frame r (s.reg rs)⟩
  rw [State.specialsInOrder_advance, State.specialsInOrder_writeSpecial, hread, toNat_of_specialOf hr]

/-- Settles O32: the number names no register, and both instructions end in the trap entry. -/
theorem reservedSpecialTraps : Obligations.ReservedSpecialTraps := by
  intro spec k s hspec
  obtain ⟨hmfs, hmts⟩ := exec_mfs_mts_of_reserved (specialOf_eq_none hspec) k s
  exact ⟨⟨_, hmfs, s.trigger_trapped _ _⟩, ⟨_, hmts, s.trigger_trapped _ _⟩⟩

/-- Settles O33: the write to the port touches the events alone, and the advance `I0`. -/
theorem outWritesPort : Obligations.OutWritesPort := by
  refine ⟨fun _ hop => decode_of_opcode_i hop rfl rfl, fun rd rs1 s => ⟨_, exec_out rd rs1 s, ?_⟩⟩
  obtain ⟨hregs, hspecials, hmem, hhalted, herror, hcfg⟩ :=
    (s.ioWrite_environmentOnly ((s.reg rd).extractLsb' 0 16) (s.reg rs1)).frame
  exact ⟨s.ioWrite_ioLog _ _, congrArg (· + 8#32) (s.ioWrite_i0 _ _), fun k _ => hregs k,
    SpecialsKeptBut.advance (fun r _ => hspecials r) (by simp), hmem, hhalted, herror, hcfg, s.ioWrite_ioAnswers _ _⟩

/-- Settles O34: the read of the port touches the environment's side alone, and its value is then moved to the register;
whether the port is mapped decides the value and the event. -/
theorem inReadsPort : Obligations.InReadsPort := by
  refine ⟨fun _ hop => decode_of_opcode_i hop rfl rfl, fun rd rs1 s => ⟨_, exec_inp rd rs1 s, ?_⟩⟩
  generalize (s.reg rd).extractLsb' 0 16 = p
  obtain ⟨hregs, hspecials, hmem, hhalted, herror, hcfg⟩ := (s.ioReadDone_environmentOnly p).frame
  obtain ⟨-, hpc, hregs', hspecials', -, -⟩ := (s.ioReadDone p).moveTo_effect rs1 (s.ioRead p)
  refine ⟨fun hp => ?_, fun hp => ?_, ?_, fun k hk => (hregs' k hk).trans (hregs k),
    fun r hr => (hspecials' r hr).trans (hspecials r), hmem, hhalted, herror, hcfg⟩
  · obtain ⟨hread, hdone, -⟩ := State.io_unmapped hp 0
    rw [hread, hdone]
    exact ⟨State.reg_setReg_same .., rfl, rfl⟩
  · obtain ⟨hread, hdone, -⟩ := State.io_mapped hp 0
    rw [State.reg_advance, State.reg_setReg_same, hread, hdone]
    exact ⟨rfl, rfl, fun _ => (State.deviceAnswer_of_mem_head? · p)⟩
  · rw [hpc, State.ioReadDone_i0]

end Sys2Proof.Machine
end

section
/-! SUPPORT. The proofs about exceptions (spec/60_exceptions.md): what a taken trap entry saves and a return restores, and
where the `MSR` an instruction or a step leaves comes from; with the obligations O41 and O50. -/

namespace Sys2Proof.Machine

/-! ### The trap entry and the return from it (R250, R257, R258) -/

/-- A trap entry that is taken saves the context in `IE1` to `IE4` (R250). -/
theorem TrapTaken.saves {s t : State} {n ec : Byte} (h : TrapTaken s t n ec) :
    t.ie1 = s.i0 ∧ t.ie2 = s.s0 ∧ t.ie3 = s.fr ∧ t.ie4 = s.msr := by
  obtain ⟨_, -, rfl⟩ := h
  exact ⟨rfl, rfl, rfl, rfl⟩

/-- The mask of a write of `FR` loses nothing of a value whose reserved bits are 0 (R28): the mask and those bits make
up the whole byte. -/
theorem and_flagMask_of_reserved_zero {v : Byte} (h : v &&& 0xB8#8 = 0#8) : v &&& flagMask = v :=
  calc v &&& flagMask
      _ = (v &&& 0xB8#8) ||| (v &&& flagMask) := by rw [h, BitVec.zero_or]
      _ = v &&& (0xB8#8 ||| flagMask) := BitVec.and_or_distrib_left.symm
      _ = v := BitVec.and_allOnes

/-- Settles O41: the return reads back the four slots, and masks an `FR` that has no reserved bit set. -/
theorem trapThenReturnRestores : Obligations.TrapThenReturnRestores := by
  intro s u n ec hflags hvector h1 h2 h3 h4
  obtain ⟨hi0, hs0, hfr, hmsr⟩ := ((s.trigger_trapped n ec).left hvector).saves
  refine ⟨u.trapReturn, rfl, h1.trans hi0, h2.trans hs0, ?_, h4.trans hmsr, fun _ _ => rfl, fun _ => rfl⟩
  rw [State.trapReturn_fr, h3, hfr, and_flagMask_of_reserved_zero hflags]

/-! ### Where the mode comes from (R265) -/

/-- Where the `MSR` of `t` comes from, when the instruction `i` ran from `s` to `t`. -/
inductive MsrOrigin (i : Instr) (s t : State) : Prop where
  | kept (h : t.msr = s.msr)
  | trap {n ec : Byte} (h : TrapTaken s t n ec)
  | saved (hi : i = .iret) (h : t.msr = s.ie4)
  | written {rs : RegNum} (hi : i = .mts 13#5 rs) (h : t.msr = s.reg rs)

theorem HostStopped.msr_eq {s t : State} (h : HostStopped s t) : t.msr = s.msr := by
  subst h
  rfl

/-- The port bus has no part in `MSR`. -/
theorem EnvironmentOnly.msr_eq {s t : State} (h : EnvironmentOnly s t) : t.msr = s.msr := by
  rw [h]

/-- A trap entry is taken, or its vector is outside memory and the machine stops, which keeps `MSR` (R250, R253). -/
theorem MsrOrigin.trigger (i : Instr) (s : State) (n ec : Byte) : MsrOrigin i s (s.trigger n ec) := by
  rcases s.trigger_cases n ec with htrap | ⟨-, hstop⟩
  · exact .trap htrap
  · exact .kept hstop.msr_eq

/-- An instruction that made an access writes `MSR` by its own writes or by the trap entry. -/
theorem MsrOrigin.conclude {α : Type} {i : Instr} {s : State} {x : Access α} {k : α → State}
    (h : ∀ a, x = .done a → MsrOrigin i s (k a)) : MsrOrigin i s (s.conclude x k) := by
  rcases State.conclude_ends (rfl : s.conclude x k = _) with ⟨a, hx, he⟩ | ⟨_, _, htrap⟩ | hstop
  · rw [he]
    exact h a hx
  · exact .trap htrap
  · exact .kept hstop.msr_eq

/-- A write of a special register writes `MSR` when it is the one named, by number 13 (R30, R228). -/
theorem MsrOrigin.writeSpecial {spec : RegNum} {r : SpecialReg} (h : specialOf spec = some r) (rs : RegNum)
    (s : State) : MsrOrigin (.mts spec rs) s (s.writeSpecial r (s.reg rs)).advance := by
  cases r with
  | msr =>
    obtain rfl : spec = 13#5 := RegNum.eq_of_toNat (toNat_of_specialOf h)
    exact .written rfl rfl
  | _ => exact .kept rfl

/-- An instruction writes `MSR` only as a trap entry, as `IRET` or as `MTS` to it. -/
theorem MsrOrigin.of_exec {i : Instr} {s t : State} (h : exec i s = .next t) : MsrOrigin i s t := by
  cases i with
  | swi =>
    cases h
    exact .trigger ..
  | iret =>
    cases h
    exact .saved rfl rfl
  | mts =>
    cases h
    exact .conclude fun _ hr => .writeSpecial (specialOf_of_specialAccess hr) _ s
  | ldr | str | push | pop | call | ret | div | mod | mfs =>
    cases h
    exact .conclude fun _ _ => .kept rfl
  | beq | bne =>
    cases h
    split <;> exact .kept rfl
  | out =>
    cases h
    exact .kept (s.ioWrite_environmentOnly _ _).msr_eq
  | inp =>
    cases h
    exact .kept (s.ioReadDone_environmentOnly _).msr_eq
  | _ =>
    cases h
    exact .kept rfl

/-- Settles O50: bit 31 of the new `MSR` is clear where `MSR` is kept, and elsewhere it is that of its origin. -/
theorem kernelModeEntryPoints : Obligations.KernelModeEntryPoints := by
  intro s t hstep huser hkernel
  have hwritten : t.msr ≠ s.msr := by
    intro hkept
    simp [hkept, huser] at hkernel
  obtain ⟨-, ⟨w, i, hfetch, hdec, hexec⟩ | htrap | hstop⟩ := step_cases hstep
  · cases MsrOrigin.of_exec hexec with
    | kept h => exact absurd h hwritten
    | trap h => exact .inl ⟨_, _, h⟩
    | saved hi h =>
      subst hi
      exact .inr (.inl ⟨w, hfetch, hdec, h ▸ hkernel⟩)
    | written hi h =>
      subst hi
      exact .inr (.inr ⟨w, _, hfetch, hdec, h ▸ hkernel⟩)
  · exact .inl htrap
  · exact absurd hstop.msr_eq hwritten

end Sys2Proof.Machine
end

section
/-! SUPPORT. The proofs about the host's interface (spec/70_reset_and_hazards.md): what a byte reads as after an image
is placed, the two answers of the load; and the obligation O54, read off those. -/

namespace Sys2Proof.Machine

/-! ### Bytes placed one after the other -/

/-- Bytes placed from `a` up change no byte below `a` or past the last of them. -/
theorem Memory.read_writeBytes_outside (m : Memory) {a x : Nat} (bs : List Byte) (h : x < a ∨ a + bs.length ≤ x) :
    Memory.read (Memory.writeBytes m a bs) x = Memory.read m x := by
  induction bs generalizing m a with
  | nil => rfl
  | cons b bs ih =>
    rw [List.length_cons] at h
    calc Memory.read (Memory.writeBytes (Memory.write m a b) (a + 1) bs) x
      _ = Memory.read (Memory.write m a b) x := ih _ (by omega)
      _ = Memory.read m x := Memory.read_write_ne m b (by omega)

/-- Byte `k` of those placed from `a` up is at `a + k`: the first is not written again, the others follow it. -/
theorem Memory.read_writeBytes_of_getElem? {m : Memory} (hm : Memory.wf m) {a k : Nat} {bs : List Byte} {b : Byte}
    (h : bs[k]? = some b) : Memory.read (Memory.writeBytes m a bs) (a + k) = b := by
  induction bs generalizing m a k with
  | nil => cases h
  | cons c bs ih =>
    cases k with
    | zero =>
      obtain rfl : c = b := Option.some.inj h
      calc Memory.read (Memory.writeBytes (Memory.write m a c) (a + 1) bs) a
        _ = Memory.read (Memory.write m a c) a := Memory.read_writeBytes_outside _ bs (.inl a.lt_succ_self)
        _ = c := Memory.read_write_same hm a c
    | succ k =>
      rw [Nat.add_comm k 1, ← Nat.add_assoc]
      exact ih (Memory.write_wf hm a c) h

/-! ### The load of an image -/

/-- An image that fits is placed (R290). -/
theorem State.loadImage_of_le {s : State} {base : Nat} {image : List Byte}
    (h : base + image.length ≤ s.cfg.memSize) :
    s.loadImage base image = .ok (s.setMem (Memory.writeBytes s.mem base image)) := if_pos h

/-- An image that does not fit is refused (R290). -/
theorem State.loadImage_of_lt {s : State} {base : Nat} {image : List Byte}
    (h : s.cfg.memSize < base + image.length) : s.loadImage base image = .error .imageTooLarge :=
  if_neg (Nat.not_le.mpr h)

/-- Settles O54: the load writes memory alone, where the bytes placed are read back and no others have changed. -/
theorem loadImagePlacesBytes : Obligations.LoadImagePlacesBytes := by
  intro s base image hwf
  refine ⟨fun hfits => ⟨_, State.loadImage_of_le hfits, rfl, fun k b hk => ?_, fun a ha => ?_⟩, State.loadImage_of_lt⟩
  · exact Memory.read_writeBytes_of_getElem? hwf hk
  · exact Memory.read_writeBytes_outside s.mem image ha

end Sys2Proof.Machine
end
